-- ==== Sys2Proof/Word.lean ====
section
/-! DEFINITION. The widths of the values the block carries (R9, R20, R50, R55; log entry 25, DEDUCED). -/

namespace Sys2Proof

/-- One framebuffer byte, and the calculator's mask (R19, R20). -/
abbrev Byte := BitVec 8

/-- A row index or a column index: `row[15:0]`, `col[15:0]` (R9). -/
abbrev Coord := BitVec 16

/-- A color, `color[31:0]`, and the write data of a RowAccessor call (R9, R58). -/
abbrev Color := BitVec 32

/-- An accessor error code, `err[15:0]` (R9). -/
abbrev ErrCode := BitVec 16

/-- The calculator's shift, `SHIFT[2:0]` (R20). -/
abbrev Shift := BitVec 3

/-- A command word, `w[95:0]` (R50). -/
abbrev CmdWord := BitVec 96

/-- A response word, `r[31:0]` (R55). -/
abbrev RespWord := BitVec 32

end Sys2Proof
end

