-- ==== Sys2Proof/Config.lean ====
section
/-! DEFINITION. What is fixed when an instance is elaborated: the depth, the packing order (R6, R7, R14) and
the model's named parameter READ_FAIL_POLICY (R10). No constructor stands for any depth but the seven of R6, so a
configuration that R91 rejects cannot be written down. -/

namespace Sys2Proof

/-- The depths of the masked path, below 8 bits per pixel (R8, R78). Only these have a calculator (R62). -/
inductive SubDepth where
  | one
  | two
  | four
  deriving DecidableEq, Repr

/-- The depths of the direct path (R78). -/
inductive WideDepth where
  | eight
  | sixteen
  | twentyFour
  | thirtyTwo
  deriving DecidableEq, Repr

/-- `BPP`: one of 1, 2, 4, 8, 16, 24, 32 (R6). The two constructors are the two paths of R78. -/
inductive Depth where
  | sub (d : SubDepth)
  | wide (d : WideDepth)
  deriving DecidableEq, Repr

/-- `ORDER` (R7): whether a byte's lowest column lies in its high-order or its low-order bits (R30). -/
inductive PackingOrder where
  | msbFirst
  | lsbFirst
  deriving DecidableEq, Repr

/-- `READ_FAIL_POLICY` (R10): what the masked path does when its read call fails (R80). -/
inductive ReadFailPolicy where
  /-- No write call is made; the spec's choice for this hardware. -/
  | abort
  /-- The merge goes on with a byte nothing constrains, and the read's error is reported at the end. -/
  | writeAny
  deriving DecidableEq, Repr

/-- The configuration of an instance, `CFG_BPP` and `CFG_ORDER` (R14). -/
structure Config where
  depth : Depth
  order : PackingOrder
  deriving DecidableEq, Repr

/-- The number of bits per pixel a masked depth names (R6). -/
def SubDepth.bits : SubDepth → Nat
  | .one => 1
  | .two => 2
  | .four => 4

/-- The number of bits per pixel a direct depth names (R6). -/
def WideDepth.bits : WideDepth → Nat
  | .eight => 8
  | .sixteen => 16
  | .twentyFour => 24
  | .thirtyTwo => 32

/-- `BPP` as a number (R6). -/
def Depth.bits : Depth → Nat
  | .sub d => d.bits
  | .wide d => d.bits

end Sys2Proof
end

