-- ==== Sys2Proof/Syntax.lean ====
section
/-! DEFINITION. The commands of the block: SETPIXEL, CALC and MERGE, and no others (R51, R96). Each operand has the
width of its field in the command word (R50). -/

namespace Sys2Proof

/-- A command: one constructor per row of spec/opcode_table.json (R51). -/
inductive Instr where
  /-- `SETPIXEL <row>, <col>, <color>`: write one pixel through the RowAccessor (R78). -/
  | setpixel (row col : Coord) (color : Color)
  /-- `CALC <col>`: the calculator's shift and mask for a column (R72). -/
  | calcCol (col : Coord)
  /-- `MERGE <col>, <color>, <exist>`: the merge of a given byte with a color (R77). -/
  | merge (col : Coord) (color : Color) (exist : Byte)
  deriving DecidableEq, Repr

end Sys2Proof
end

