-- ==== Sys2Proof/WellFormed.lean ====
section
/-! DEFINITION. Which commands are legal at which depth (R54). The operands carry their field widths in their types,
so a command's one further condition is that the unit it names exists in the instance. -/

namespace Sys2Proof

/-- SETPIXEL is legal at every configured depth; CALC and MERGE only where there is a calculator, at depths below 8
(R54). -/
def Instr.wf (d : Depth) : Instr → Bool
  | .setpixel _ _ _ => true
  | .calcCol _ =>
    match d with
    | .sub _ => true
    | .wide _ => false
  | .merge _ _ _ =>
    match d with
    | .sub _ => true
    | .wide _ => false

end Sys2Proof
end

