-- ==== Sys2Proof/Decode.lean ====
section
/-! DEFINITION. The command word's fields and its decoder and encoder (R50 to R54), and the configuration code
(R57, R91). -/

namespace Sys2Proof

/-- Why a command word is `ILLEGAL` (R53, R54, R89). The block reports none of these apart from the others: the
names are the model's (log entry 17, DESIGN CHOICE). -/
inductive IllegalCause where
  /-- `OP = 3` (R51). -/
  | reservedOp
  /-- A nonzero bit in `w[7:2]` or `w[31:16]` (R50). -/
  | reservedBits
  /-- A nonzero `EXIST` in a SETPIXEL or a CALC. -/
  | unusedExist
  /-- A nonzero `ROW` in a CALC or a MERGE. -/
  | unusedRow
  /-- A nonzero `COLOR` in a CALC. -/
  | unusedColor
  /-- CALC or MERGE at a depth of 8 or more (R54). -/
  | noCalculator
  deriving DecidableEq, Repr

/-- `OP = w[1:0]` (R50). -/
def opOf (w : CmdWord) : BitVec 2 := w.extractLsb' 0 2

/-- The reserved field `w[7:2]` (R50). -/
def reservedLoOf (w : CmdWord) : BitVec 6 := w.extractLsb' 2 6

/-- `EXIST = w[15:8]` (R50). -/
def existOf (w : CmdWord) : Byte := w.extractLsb' 8 8

/-- The reserved field `w[31:16]` (R50). -/
def reservedHiOf (w : CmdWord) : BitVec 16 := w.extractLsb' 16 16

/-- `COL = w[47:32]` (R50). -/
def colOf (w : CmdWord) : Coord := w.extractLsb' 32 16

/-- `ROW = w[63:48]` (R50). -/
def rowOf (w : CmdWord) : Coord := w.extractLsb' 48 16

/-- `COLOR = w[95:64]` (R50). -/
def colorOf (w : CmdWord) : Color := w.extractLsb' 64 32

/-- A SETPIXEL word: `EXIST` must be 0 (R53). -/
def decodeSetpixel (w : CmdWord) : Except IllegalCause Instr :=
  if existOf w ≠ 0 then .error .unusedExist
  else .ok (.setpixel (rowOf w) (colOf w) (colorOf w))

/-- A CALC word: `EXIST`, `ROW` and `COLOR` must be 0 (R53). -/
def decodeCalc (w : CmdWord) : Except IllegalCause Instr :=
  if existOf w ≠ 0 then .error .unusedExist
  else if rowOf w ≠ 0 then .error .unusedRow
  else if colorOf w ≠ 0 then .error .unusedColor
  else .ok (.calcCol (colOf w))

/-- A MERGE word: `ROW` must be 0 (R53). -/
def decodeMerge (w : CmdWord) : Except IllegalCause Instr :=
  if rowOf w ≠ 0 then .error .unusedRow
  else .ok (.merge (colOf w) (colorOf w) (existOf w))

/-- Decoding by the word alone: R53 without its last check, the partition that the opcode table's `match` and `mask`
give. -/
def decodeWord (w : CmdWord) : Except IllegalCause Instr :=
  if opOf w = 3 then .error .reservedOp
  else if reservedLoOf w ≠ 0 ∨ reservedHiOf w ≠ 0 then .error .reservedBits
  else if opOf w = 0 then decodeSetpixel w
  else if opOf w = 1 then decodeCalc w
  else decodeMerge w

/-- `decode(w, CFG_BPP)`, total over all words (R53), with the check of R54 last. -/
def decode (d : Depth) (w : CmdWord) : Except IllegalCause Instr :=
  match decodeWord w with
  | .error c => .error c
  | .ok i => if i.wf d then .ok i else .error .noCalculator

/-- The command word with the given fields, the reserved fields 0 (R50). -/
def packCommand (color : Color) (row col : Coord) (exist : Byte) (op : BitVec 2) : CmdWord :=
  (color ++ row ++ col ++ (0 : BitVec 16) ++ exist ++ (0 : BitVec 6) ++ op).cast rfl

/-- The one word of a command (R50, R51, R61). -/
def encode : Instr → CmdWord
  | .setpixel row col color => packCommand color row col 0 0
  | .calcCol col => packCommand 0 0 col 0 1
  | .merge col color exist => packCommand color 0 col exist 2

/-- A row of spec/opcode_table.json: a word `w` matches it when `(w & mask) == match` (30_encoding.md, opcode map). -/
structure OpcodeRow where
  mnemonic : String
  pattern : CmdWord
  mask : CmdWord
  deriving DecidableEq, Repr

/-- `(w & mask) == match`. -/
def OpcodeRow.matchesWord (r : OpcodeRow) (w : CmdWord) : Bool := w &&& r.mask = r.pattern

/-- The table's row for SETPIXEL. -/
def rowSetpixel : OpcodeRow := ⟨"SETPIXEL", 0x000000000000000000000000, 0x0000000000000000FFFFFFFF⟩

/-- The table's row for CALC. -/
def rowCalc : OpcodeRow := ⟨"CALC", 0x000000000000000000000001, 0xFFFFFFFFFFFF0000FFFFFFFF⟩

/-- The table's row for MERGE. -/
def rowMerge : OpcodeRow := ⟨"MERGE", 0x000000000000000000000002, 0x00000000FFFF0000FFFF00FF⟩

/-- The row of a command. -/
def Instr.row : Instr → OpcodeRow
  | .setpixel _ _ _ => rowSetpixel
  | .calcCol _ => rowCalc
  | .merge _ _ _ => rowMerge

/-- The command read from an instruction whose bits are `w`, the bits above `nbits` 0: a command is one 96-bit word
(R59), so the word is handed to the decoder whole, and a number with a bit above bit 95 is no command. The check of
R54 depends on the instance and is left to `decode`. -/
def decodeTableWord (nbits w : Nat) : Option Instr :=
  if w % 2 ^ nbits < 2 ^ 96 then
    match decodeWord (BitVec.ofNat 96 (w % 2 ^ nbits)) with
    | .ok i => some i
    | .error _ => none
  else none

/-- `cfg[2:0]` read as a depth; code `111` is rejected (R57, R91). -/
def depthOfCode (c : BitVec 3) : Option Depth :=
  if c = 0 then some (.sub .one)
  else if c = 1 then some (.sub .two)
  else if c = 2 then some (.sub .four)
  else if c = 3 then some (.wide .eight)
  else if c = 4 then some (.wide .sixteen)
  else if c = 5 then some (.wide .twentyFour)
  else if c = 6 then some (.wide .thirtyTwo)
  else none

/-- `cfg[3]` read as a packing order (R57). -/
def orderOfCode (c : BitVec 1) : PackingOrder := if c = 0 then .msbFirst else .lsbFirst

/-- The configuration of the 4-bit code `cfg[3:0]`, or a rejection at elaboration (R57, R91). -/
def configOfCode (c : BitVec 4) : Option Config :=
  match depthOfCode (c.extractLsb' 0 3) with
  | none => none
  | some d => some ⟨d, orderOfCode (c.extractLsb' 3 1)⟩

/-- The code of a depth (R57). -/
def codeOfDepth : Depth → BitVec 3
  | .sub .one => 0
  | .sub .two => 1
  | .sub .four => 2
  | .wide .eight => 3
  | .wide .sixteen => 4
  | .wide .twentyFour => 5
  | .wide .thirtyTwo => 6

/-- The code of a packing order (R57). -/
def codeOfOrder : PackingOrder → BitVec 1
  | .msbFirst => 0
  | .lsbFirst => 1

/-- The 4-bit code of a configuration (R57). -/
def codeOfConfig (c : Config) : BitVec 4 := codeOfOrder c.order ++ codeOfDepth c.depth

/-- The depth a number of bits per pixel names; any number outside the seven of R6 is rejected (R6, R91). -/
def depthOfNat (n : Nat) : Option Depth :=
  if n = 1 then some (.sub .one)
  else if n = 2 then some (.sub .two)
  else if n = 4 then some (.sub .four)
  else if n = 8 then some (.wide .eight)
  else if n = 16 then some (.wide .sixteen)
  else if n = 24 then some (.wide .twentyFour)
  else if n = 32 then some (.wide .thirtyTwo)
  else none

end Sys2Proof
end

