-- ==== Sys2Proof/Machine/State.lean ====
section
/-! DEFINITION. The state of one framebuffer device: the block instances that share its RowAccessor, the framebuffer,
the calls at the RowAccessor, and the turns that say which agent of R4 moves next. -/

namespace Sys2Proof.Machine

/-- The sequencer's phase register (R17). -/
inductive Phase where
  /-- No command in flight; the command port is ready. -/
  | idle
  /-- A read call is issued and its response awaited. -/
  | rdWait
  /-- A write call is issued and its response awaited. -/
  | wrWait
  deriving DecidableEq, Repr

/-- `KIND` of a RowAccessor call (R32). -/
inductive CallKind where
  | read
  | write
  deriving DecidableEq, Repr

/-- A request on the RowAccessor port: `{KIND, ROW, COL, COUNT, WDATA}` (R32, R58). -/
structure Request where
  kind : CallKind
  row : Coord
  col : Coord
  count : BitVec 4
  wdata : Color
  deriving DecidableEq, Repr

/-- `ST` of a RowAccessor response (R32, R58). -/
inductive AccStatus where
  | ok
  | err
  deriving DecidableEq, Repr

/-- A response on the RowAccessor port: `{ST, ERR, RDATA}` (R32, R58). `err` means something only when `st` is `err`,
and `rdata` only on a successful read; elsewhere they are what the RowAccessor happens to drive. -/
structure Answer where
  st : AccStatus
  err : ErrCode
  rdata : Byte
  deriving DecidableEq, Repr

/-- What the RowAccessor draws when it performs a call (R36, R37): the status, the error value, the byte it drives
where `RDATA` has no meaning, and whether a failing write reached its target. Nothing constrains a draw: it is a free
value, held as data in the turn that uses it (log entry 7, DESIGN CHOICE). -/
structure Draw where
  st : AccStatus
  err : ErrCode
  rdata : Byte
  landed : Bool
  deriving DecidableEq, Repr

/-- `STATUS` of a response (R56). Code 3 is never produced and has no constructor. -/
inductive Status where
  | ok
  | accErr
  | illegal
  deriving DecidableEq, Repr

/-- A response's fields (R55). -/
structure Response where
  status : Status
  shift : Shift
  data : Byte
  err : ErrCode
  deriving DecidableEq, Repr

/-- One block instance: its phase, its latches, and its three ports (R3). -/
structure Block where
  /-- `phase` (R17). -/
  phase : Phase
  /-- `L_ROW` (R18). -/
  lRow : Coord
  /-- `L_COL` (R18). -/
  lCol : Coord
  /-- `L_COLOR` (R18). -/
  lColor : Color
  /-- `L_BYTE` (R19). -/
  lByte : Byte
  /-- The failed read's error, kept under `WRITE_ANY` until the response reports it (R80, R92; log entry 12, DEDUCED). -/
  readErr : Option ErrCode
  /-- The words the caller of this instance drives on the command port, in order; the first is the one presented now,
  held until accepted (R105; log entry 8, DESIGN CHOICE). -/
  commands : List CmdWord
  /-- The words driven on the response port and not yet taken by the caller, oldest first (R55; log entry 9,
  DESIGN CHOICE). -/
  responses : List RespWord
  /-- The call outstanding on the RowAccessor port and not yet performed (R32, R44). -/
  call : Option Request
  /-- The RowAccessor's response to the performed call, not yet received by the sequencer (R32, R44). -/
  answer : Option Answer
  deriving DecidableEq, Repr

/-- Whose move a step is, with what the mover draws (R4, R45; log entry 6, DESIGN CHOICE). -/
inductive Turn where
  /-- The sequencer of instance `n`. -/
  | sequencer (n : Nat)
  /-- The RowAccessor performs and answers the call of instance `n`. -/
  | accessor (n : Nat) (d : Draw)
  /-- The RowAccessor performs a call of an agent outside the blocks, such as software (log entry 22, DESIGN CHOICE). -/
  | other (q : Request)
  /-- The RowAccessor disposes of the `k`-th call abandoned by a reset: performed or not (R100). -/
  | late (k : Nat) (landed : Bool)
  /-- The caller of instance `n` takes the oldest response. -/
  | take (n : Nat)
  /-- Reset is asserted to instance `n` (R99, R100). -/
  | reset (n : Nat)
  deriving DecidableEq, Repr

/-- The whole machine. The block instances are `before`, `here` and `after`, in the order of their numbers from 0;
`here` is the one whose agent moves now, so at least one exists (R97; log entry 2, DESIGN CHOICE). -/
structure State where
  /-- `CFG_BPP` and `CFG_ORDER`, equal in all instances that share the framebuffer (R14, R97; log entry 11, DEDUCED). -/
  cfg : Config
  /-- `READ_FAIL_POLICY` (R10; log entry 24, DEDUCED). -/
  policy : ReadFailPolicy
  /-- The instances numbered below `here`. -/
  before : List Block
  /-- The instance that moves. -/
  here : Block
  /-- The instances numbered above `here`. -/
  after : List Block
  /-- `FB[row][k]`, the framebuffer of a masked depth (R28), in the canonical form `Memory.wf`. -/
  fb : List Host.Cell
  /-- `PX[row][col]`, the framebuffer of a direct depth (R29), in the canonical form `Memory.wf`. -/
  px : List (Nat × Color)
  /-- The calls abandoned by a reset that the RowAccessor has not disposed of yet (R100; log entry 10, DESIGN CHOICE). -/
  late : List Request
  /-- The turns still to come (R45; log entry 6, DESIGN CHOICE). -/
  turns : List Turn
  deriving DecidableEq, Repr

/-- Why the machine stops with a fault. The spec has no trap and no fault (R88, R94); the one constructor marks a
place where a total function meets a combination the spec gives no rule for. -/
inductive Fault where
  /-- Raised when the RowAccessor is to perform a read call, or the sequencer to receive a read's response, at a depth
  of 8 or more: no such call is ever issued (R82, R84) and no calculator exists there (R62). Safe: the machine stops,
  and no state that `State.wf` admits reaches it (log entry 14, DESIGN CHOICE). -/
  | readAtDirectDepth
  deriving DecidableEq, Repr

/-- Why an instruction has no meaning. -/
inductive Refusal where
  /-- Raised by `exec`'s arm of an instruction that has no meaning yet, with its mnemonic. Safe: the machine stops.
  No arm of this model raises it. -/
  | notModelled (mnemonic : String)
  deriving DecidableEq, Repr

/-- An instance after reset (R26, R99): `IDLE`, no response pending, no call outstanding. The latches are unspecified
there and no rule reads them before writing them; the model names 0 (log entry 3, DESIGN CHOICE: unsafe). -/
def Block.reset : Block where
  phase := .idle
  lRow := 0
  lCol := 0
  lColor := 0
  lByte := 0
  readErr := none
  commands := []
  responses := []
  call := none
  answer := none

/-- The machine after power-up and reset: any configuration, any policy, `n + 1` instances, and a framebuffer of any
contents (R43, R97, R99, R102). -/
def State.powerUp (cfg : Config) (policy : ReadFailPolicy) (n : Nat) (fb : List Host.Cell)
    (px : List (Nat × Color)) : State where
  cfg := cfg
  policy := policy
  before := []
  here := Block.reset
  after := List.replicate n Block.reset
  fb := fb
  px := px
  late := []
  turns := []

/-- The machine right after reset. The spec gives the phase and the ports (R26, R99) and the policy `ABORT` (R10). The
model chooses (DESIGN CHOICE: unsafe) two bits per pixel, most significant first, which is the source's worked example
(log entry 1), one instance (log entry 2), and a framebuffer that reads as 0 (log entry 4). -/
def State.reset : State := State.powerUp ⟨.sub .two, .msbFirst⟩ .abort 0 [] []

end Sys2Proof.Machine
end

