-- ==== Sys2Proof/Machine/Operands.lean ====
section
/-! DEFINITION. The block's one operand form is a pixel coordinate (R27): how a column names a byte and a place in it
(R28), where a coordinate lies in the framebuffer, and the calls a SETPIXEL makes for it (R32, R58). -/

namespace Sys2Proof.Machine

/-- `PPB`, the number of pixels that share a byte: `8 / BPP` (R8). -/
def ppb (d : SubDepth) : Nat := 8 / d.bits

/-- `idx = col mod PPB`, a column's place in its cluster (glossary of 00_scope.md, R70). -/
def clusterIndex (d : SubDepth) (col : Coord) : Nat := col.toNat % ppb d

/-- `k = col div PPB`, the byte of the row that holds a column (R28). -/
def byteIndex (d : SubDepth) (col : Coord) : Nat := col.toNat / ppb d

/-- The key of `FB[row][k]` (log entry 15, DESIGN CHOICE). -/
def fbKey (row : Coord) (k : Nat) : Nat := row.toNat * 65536 + k

/-- The key of the byte `FB[row][col div PPB]`, the byte that contains the column, aligned or not (R33, R34; log entry 16,
DEDUCED: unsafe). -/
def fbAddress (d : SubDepth) (row col : Coord) : Nat := fbKey row (byteIndex d col)

/-- The key of the pixel `PX[row][col]` (R35; log entry 15, DESIGN CHOICE). -/
def pxAddress (row col : Coord) : Nat := row.toNat * 65536 + col.toNat

/-- The key in the framebuffer of the location a call addresses: a byte at a masked depth, a pixel at a direct one
(R33 to R35). -/
def targetAddress (d : Depth) (row col : Coord) : Nat :=
  match d with
  | .sub d => fbAddress d row col
  | .wide _ => pxAddress row col

/-- `COUNT` of a masked call: `PPB`, in 4 bits (R32, R58). -/
def maskedCount (d : SubDepth) : BitVec 4 := BitVec.ofNat 4 (ppb d)

/-- The read call of the masked path: the column is passed unrounded, `WDATA` is 0 (R32, R58, R79). -/
def readCall (d : SubDepth) (row col : Coord) : Request := ⟨.read, row, col, maskedCount d, 0⟩

/-- The write call of the masked path: the byte in `WDATA[7:0]`, the bits above it 0 (R58, R79). -/
def writeByteCall (d : SubDepth) (row col : Coord) (b : Byte) : Request :=
  ⟨.write, row, col, maskedCount d, b.setWidth 32⟩

/-- The write call of the direct path: one pixel, the raw color (R58, R82). -/
def writePixelCall (row col : Coord) (color : Color) : Request := ⟨.write, row, col, 1, color⟩

/-- The byte a masked write call stores: `WDATA[7:0]` (R34). -/
def storedByte (wdata : Color) : Byte := wdata.setWidth 8

/-- The pixel value a direct write call stores: `WDATA[BPP-1:0]` (R35). How its bytes lie in device memory is outside
the model (log entry 26, DEDUCED: safe). -/
def storedPixel (d : WideDepth) (wdata : Color) : Color := (wdata.setWidth d.bits).setWidth 32

end Sys2Proof.Machine
end

