-- ==== Sys2Proof/Machine/Datapath.lean ====
section
/-! DEFINITION. The two combinational units (R2): the calculator (R62 to R71) and the merge datapath (R73 to R76). -/

namespace Sys2Proof.Machine

/-- `BMASK`: `0x01`, `0x03` or `0x0F` (R69). -/
def baseMask : SubDepth → Byte
  | .one => 0x01
  | .two => 0x03
  | .four => 0x0F

/-- The calculator's shift, by the one of R63 to R68 that matches; formed in the column's 16 bits, of which the result
fills 3. -/
def calcShift (d : SubDepth) (o : PackingOrder) (col : Coord) : Shift :=
  match d, o with
  | .one, .msbFirst => (7 - (col &&& 7)).setWidth 3
  | .one, .lsbFirst => (col &&& 7).setWidth 3
  | .two, .msbFirst => (6 - ((col &&& 3) <<< 1)).setWidth 3
  | .two, .lsbFirst => ((col &&& 3) <<< 1).setWidth 3
  | .four, .msbFirst => (4 - ((col &&& 1) <<< 2)).setWidth 3
  | .four, .lsbFirst => ((col &&& 1) <<< 2).setWidth 3

/-- The calculator's mask: `trunc_8(BMASK << shift)` (R69). -/
def calcMask (d : SubDepth) (o : PackingOrder) (col : Coord) : Byte := baseMask d <<< calcShift d o col

/-- `calc(col, BPP, ORDER) -> (shift, mask)` (R62). -/
def calcOf (d : SubDepth) (o : PackingOrder) (col : Coord) : Shift × Byte :=
  (calcShift d o col, calcMask d o col)

/-- `merge(existing, color, shift, mask)` (R73): the color is shifted at 40 bits and truncated to 8. -/
def merge (existing : Byte) (color : Color) (shift : Shift) (mask : Byte) : Byte :=
  (existing &&& ~~~mask) ||| ((((color.setWidth 40) <<< shift).setWidth 8) &&& mask)

/-- The merge at a column's shift and mask, as MERGE and the masked path apply it (R77, R79). -/
def mergeAt (d : SubDepth) (o : PackingOrder) (existing : Byte) (color : Color) (col : Coord) : Byte :=
  merge existing color (calcOf d o col).1 (calcOf d o col).2

/-- `pixel(byte, col)`: the value of a column's pixel in its byte, an observation and no command (R76). -/
def pixel (d : SubDepth) (o : PackingOrder) (b : Byte) (col : Coord) : Byte :=
  (b &&& (calcOf d o col).2) >>> (calcOf d o col).1

end Sys2Proof.Machine
end

