-- ==== Sys2Proof/Machine/Flags.lean ====
section
/-! DEFINITION. The block has no flags and no condition codes (R21): the outcome of a command is the `STATUS` field of
its response. This file packs a response into its word and names the responses the commands give (R55, R56), and gives
the one-bit codes of the RowAccessor port (R58). -/

namespace Sys2Proof.Machine

/-- The code of a `STATUS` (R56). -/
def statusCode : Status → BitVec 2
  | .ok => 0
  | .accErr => 1
  | .illegal => 2

/-- The response word `r[31:0]` (R55): `ERR`, `DATA`, three bits of 0, `SHIFT`, `STATUS`. -/
def Response.word (r : Response) : RespWord :=
  (r.err ++ r.data ++ (0 : BitVec 3) ++ r.shift ++ statusCode r.status).cast rfl

/-- `STATUS = r[1:0]`, if it is a status (R55, R56). -/
def statusOf (w : RespWord) : Option Status :=
  if w.extractLsb' 0 2 = 0 then some .ok
  else if w.extractLsb' 0 2 = 1 then some .accErr
  else if w.extractLsb' 0 2 = 2 then some .illegal
  else none

/-- The fields of a response word, if it is one the block may drive: a status of R56 and bits 7 to 5 zero (R55). -/
def readResponse (w : RespWord) : Option Response :=
  match statusOf w with
  | none => none
  | some st =>
    if w.extractLsb' 5 3 = 0 then some ⟨st, w.extractLsb' 2 3, w.extractLsb' 8 8, w.extractLsb' 16 16⟩
    else none

/-- The response of a completed CALC: the shift and the mask (R72). -/
def okCalc (shift : Shift) (mask : Byte) : Response := ⟨.ok, shift, mask, 0⟩

/-- The response of a completed MERGE: the merged byte, `SHIFT` 0 (R77). -/
def okMerge (result : Byte) : Response := ⟨.ok, 0, result, 0⟩

/-- The response of a completed SETPIXEL (R79, R82). -/
def okDone : Response := ⟨.ok, 0, 0, 0⟩

/-- The response of a SETPIXEL one of whose calls failed with `e` (R90). -/
def accErr (e : ErrCode) : Response := ⟨.accErr, 0, 0, e⟩

/-- The response to an illegal command (R89). -/
def illegal : Response := ⟨.illegal, 0, 0, 0⟩

/-- The outcome a SETPIXEL reports when its write is answered (R81, R83, R90, R92): a failed read's error comes before
the write's status. -/
def finalResponse (readErr : Option ErrCode) (a : Answer) : Response :=
  match readErr with
  | some e => accErr e
  | none =>
    match a.st with
    | .ok => okDone
    | .err => accErr a.err

/-- The code of a call's `KIND` (R58). -/
def kindCode : CallKind → BitVec 1
  | .read => 0
  | .write => 1

/-- The code of a response's `ST` (R58). -/
def accStatusCode : AccStatus → BitVec 1
  | .ok => 0
  | .err => 1

end Sys2Proof.Machine
end

