-- ==== Sys2Proof/Machine/Ops.lean ====
section
/-! DEFINITION. The named operations over the framebuffer, over the instance in focus and over the RowAccessor. The
block has no exception to take and none to return from (R88, R94): what stands in their place is the one way a command
reports, `State.respond`, which drives the response and returns the sequencer to `IDLE`. -/

namespace Sys2Proof.Machine

/-! ### The framebuffer as a sparse list -/

/-- The value at a key; a key that is not listed reads as 0 (log entry 4, DESIGN CHOICE: unsafe). -/
def Memory.read {n : Nat} : List (Nat × BitVec n) → Nat → BitVec n
  | [], _ => 0#n
  | (b, v) :: m, a => if b = a then v else Memory.read m a

/-- Write one key: the keys stay in rising order, and a key that holds 0 is not listed. -/
def Memory.write {n : Nat} : List (Nat × BitVec n) → Nat → BitVec n → List (Nat × BitVec n)
  | [], a, v => if v = 0#n then [] else [(a, v)]
  | (b, u) :: m, a, v =>
    if a < b then (if v = 0#n then (b, u) :: m else (a, v) :: (b, u) :: m)
    else if a = b then (if v = 0#n then m else (a, v) :: m)
    else (b, u) :: Memory.write m a v

/-- The canonical form: keys strictly rising, and no entry equal to what an unlisted key reads as. -/
def Memory.wf {n : Nat} : List (Nat × BitVec n) → Bool
  | [] => true
  | (b, u) :: m => decide (u ≠ 0#n) && (m.all fun c => decide (b < c.1)) && Memory.wf m

/-! ### The instances -/

/-- All instances, in the order of their numbers (R97). -/
def State.blocks (s : State) : List Block := s.before ++ s.here :: s.after

/-- The state with instance `n` in focus; none if there is no instance `n`. -/
def State.focus (s : State) (n : Nat) : Option State :=
  match s.blocks.drop n with
  | [] => none
  | b :: rest => some { s with before := s.blocks.take n, here := b, after := rest }

/-- Change the instance in focus. -/
def State.mapHere (s : State) (f : Block → Block) : State := { s with here := f s.here }

/-- `respond(STATUS, payload)`: drive one response word and return to `IDLE` (R13, R55). -/
def State.respond (s : State) (r : Response) : State :=
  s.mapHere fun b => { b with responses := b.responses ++ [r.word], phase := .idle, readErr := none }

/-- Issue a call on the RowAccessor port and wait for its response in phase `p` (R13, R44). -/
def State.issue (s : State) (q : Request) (p : Phase) : State :=
  s.mapHere fun b => { b with call := some q, answer := none, phase := p }

/-- Latch a SETPIXEL's operands (R18); no read of it has failed. -/
def State.latch (s : State) (row col : Coord) (color : Color) : State :=
  s.mapHere fun b => { b with lRow := row, lCol := col, lColor := color, readErr := none }

/-- Capture a byte into `L_BYTE`, with the failed read's error if there is one (R19, R80). -/
def State.capture (s : State) (v : Byte) (readErr : Option ErrCode) : State :=
  s.mapHere fun b => { b with lByte := v, readErr := readErr }

/-- The caller's next words, after the presented one is accepted (R105). -/
def State.setCommands (s : State) (ws : List CmdWord) : State :=
  s.mapHere fun b => { b with commands := ws }

/-- The sequencer has received the RowAccessor's response: nothing of the call is left on the port (R44). -/
def State.receive (s : State) : State := s.mapHere fun b => { b with call := none, answer := none }

/-- A command acts only where it is accepted, in phase `IDLE`; a busy instance is left as it is (R105; log entry 13,
DEDUCED: safe). -/
def State.whenIdle (s : State) (t : State) : State := if s.here.phase = .idle then t else s

/-! ### The RowAccessor -/

/-- Perform a write call: the whole containing byte at a masked depth (R34), the pixel at a direct one (R35). -/
def State.store (s : State) (q : Request) : State :=
  match s.cfg.depth with
  | .sub d => { s with fb := Memory.write s.fb (fbAddress d q.row q.col) (storedByte q.wdata) }
  | .wide d => { s with px := Memory.write s.px (pxAddress q.row q.col) (storedPixel d q.wdata) }

/-- Perform a write call if it lands. -/
def State.storeIf (s : State) (landed : Bool) (q : Request) : State := if landed then s.store q else s

/-- Perform a call of which only the effect on the framebuffer is seen: a read has none (R40). -/
def State.perform (s : State) (q : Request) : State :=
  match q.kind with
  | .read => s
  | .write => s.store q

/-- Drive the RowAccessor's response to the call of the instance in focus: exactly one response per call (R32). -/
def State.reply (s : State) (a : Answer) : State :=
  s.mapHere fun b => { b with call := none, answer := some a }

/-- The byte `FB[row][col div PPB]` (R28, R33). -/
def State.fbByte (s : State) (d : SubDepth) (row col : Coord) : Byte := Memory.read s.fb (fbAddress d row col)

/-- The pixel `PX[row][col]` (R29). -/
def State.pxPixel (s : State) (row col : Coord) : Color := Memory.read s.px (pxAddress row col)

/-- The RowAccessor performs and answers a read call: the containing byte when it succeeds (R33), no meaningful byte
when it fails (R36), and no effect on the framebuffer in either case (R40). -/
def State.answerRead (s : State) (q : Request) (dr : Draw) : Host.Outcome State Fault Refusal :=
  match s.cfg.depth with
  | .sub d =>
    match dr.st with
    | .ok => .next (s.reply ⟨.ok, dr.err, s.fbByte d q.row q.col⟩)
    | .err => .next (s.reply ⟨.err, dr.err, dr.rdata⟩)
  | .wide _ => .fault .readAtDirectDepth

/-- The RowAccessor performs and answers a write call: a failing one leaves its target as it was or as the call would
have it, by the draw (R34, R35, R37). -/
def State.answerWrite (s : State) (q : Request) (dr : Draw) : State :=
  match dr.st with
  | .ok => (s.store q).reply ⟨.ok, dr.err, dr.rdata⟩
  | .err => (s.storeIf dr.landed q).reply ⟨.err, dr.err, dr.rdata⟩

/-- The RowAccessor's turn for the instance in focus: it performs and answers the outstanding call, if there is one
(R36, R45; log entry 20, DESIGN CHOICE). Any call may succeed or fail (R36; log entry 23, DEDUCED: safe). -/
def State.accessorTurn (s : State) (dr : Draw) : Host.Outcome State Fault Refusal :=
  match s.here.call with
  | none => .next s
  | some q =>
    match q.kind with
    | .read => s.answerRead q dr
    | .write => .next (s.answerWrite q dr)

/-- The RowAccessor disposes of an abandoned call: it is performed or it is not, and no instance sees its response
(R100). -/
def State.lateTurn (s : State) (k : Nat) (landed : Bool) : State :=
  match s.late[k]? with
  | none => s
  | some q => if landed then ({ s with late := s.late.eraseIdx k }).perform q else { s with late := s.late.eraseIdx k }

/-! ### The caller and reset -/

/-- The caller takes the oldest response (R55). -/
def State.takeTurn (s : State) : State := s.mapHere fun b => { b with responses := b.responses.tail }

/-- Reset of the instance in focus (R99, R100): the command in flight is abandoned without a response, a call not yet
performed stays at the RowAccessor with its response unwanted, and neither the words the caller holds nor the
framebuffer (R101) is touched. -/
def State.resetTurn (s : State) : State :=
  { s with here := { Block.reset with commands := s.here.commands }, late := s.late ++ s.here.call.toList }

end Sys2Proof.Machine
end

