-- ==== Sys2Proof/Machine/Calc.lean ====
section
/-! DEFINITION. The meaning of CALC (R72). -/

namespace Sys2Proof.Machine

/-- CALC: answer with the calculator's shift and mask for the column, or `ILLEGAL` where there is no calculator (R54);
no RowAccessor call, and the phase stays `IDLE` (R72). -/
def execCalc (col : Coord) (s : State) : Host.Outcome State Fault Refusal :=
  match s.cfg.depth with
  | .sub d => .next (s.whenIdle (s.respond (okCalc (calcOf d s.cfg.order col).1 (calcOf d s.cfg.order col).2)))
  | .wide _ => .next (s.whenIdle (s.respond illegal))

end Sys2Proof.Machine
end

