-- ==== Sys2Proof/Machine/Merge.lean ====
section
/-! DEFINITION. The meaning of MERGE (R77). -/

namespace Sys2Proof.Machine

/-- MERGE: answer with the merge of the given byte and the color at the column, or `ILLEGAL` where there is no
calculator (R54); no RowAccessor call, and the phase stays `IDLE` (R77). -/
def execMerge (col : Coord) (color : Color) (exist : Byte) (s : State) : Host.Outcome State Fault Refusal :=
  match s.cfg.depth with
  | .sub d => .next (s.whenIdle (s.respond (okMerge (mergeAt d s.cfg.order exist color col))))
  | .wide _ => .next (s.whenIdle (s.respond illegal))

end Sys2Proof.Machine
end

