-- ==== Sys2Proof/Machine/SetPixel.lean ====
section
/-! DEFINITION. The meaning of SETPIXEL (R78 to R83): the step that accepts it, and the steps that go on when the
RowAccessor has answered. Between them other agents may move (R13, R45), so they are separate steps. -/

namespace Sys2Proof.Machine

/-- SETPIXEL, accepted: latch the operands and issue the first call, a read on the masked path (R79), the write of the
raw color on the direct path (R82). The configuration alone chooses the path (R78). -/
def execSetpixel (row col : Coord) (color : Color) (s : State) : Host.Outcome State Fault Refusal :=
  match s.cfg.depth with
  | .sub d => .next (s.whenIdle ((s.latch row col color).issue (readCall d row col) .rdWait))
  | .wide _ => .next (s.whenIdle ((s.latch row col color).issue (writePixelCall row col color) .wrWait))

/-- Steps 2 to 4 of the masked path: capture the byte, merge the color into it, issue the write call (R79). -/
def continueMasked (d : SubDepth) (v : Byte) (readErr : Option ErrCode) (s : State) : State :=
  (s.capture v readErr).issue
    (writeByteCall d s.here.lRow s.here.lCol (mergeAt d s.cfg.order v s.here.lColor s.here.lCol)) .wrWait

/-- The read's response is received: go on with the byte read (R79), or do what `READ_FAIL_POLICY` says (R80). Under
`WRITE_ANY` the byte is the one the failing response drives, which nothing constrains (log entry 5, DESIGN CHOICE). -/
def onReadAnswer (a : Answer) (s : State) : Host.Outcome State Fault Refusal :=
  match s.cfg.depth with
  | .sub d =>
    match a.st with
    | .ok => .next (continueMasked d a.rdata none s.receive)
    | .err =>
      match s.policy with
      | .abort => .next (s.receive.respond (accErr a.err))
      | .writeAny => .next (continueMasked d a.rdata (some a.err) s.receive)
  | .wide _ => .fault .readAtDirectDepth

/-- The write's response is received: report the outcome (R79, R81, R82, R83, R92). -/
def onWriteAnswer (a : Answer) (s : State) : State := s.receive.respond (finalResponse s.here.readErr a)

end Sys2Proof.Machine
end

