-- ==== Sys2Proof/Machine/Dispatch.lean ====
section
/-! DEFINITION. One arm per command. -/

namespace Sys2Proof.Machine

/-- The meaning of a command in the instance in focus. -/
def exec (i : Instr) (s : State) : Host.Outcome State Fault Refusal :=
  match i with
  | .setpixel row col color => Sys2Proof.Machine.execSetpixel row col color s
  | .calcCol col => Sys2Proof.Machine.execCalc col s
  | .merge col color exist => Sys2Proof.Machine.execMerge col color exist s

end Sys2Proof.Machine
end

