-- ==== Sys2Proof/Machine/Turns.lean ====
section
/-! DEFINITION. What each agent does in its turn: the sequencer of an instance, the RowAccessor, another agent's call,
the caller, reset (R4, R45). -/

namespace Sys2Proof.Machine

/-- A sequencer in `IDLE`: it accepts the presented word, decodes it and runs the command, or answers `ILLEGAL` with
no other effect (R53, R89, R105); with no word presented it waits. -/
def acceptTurn (s : State) : Host.Outcome State Fault Refusal :=
  match s.here.commands with
  | [] => .next s
  | w :: ws =>
    match decode s.cfg.depth w with
    | .ok i => exec i (s.setCommands ws)
    | .error _ => .next ((s.setCommands ws).respond illegal)

/-- The turn of the sequencer in focus, by its phase (R17). With no response to receive it waits, without bound
(R107). -/
def sequencerTurn (s : State) : Host.Outcome State Fault Refusal :=
  match s.here.phase with
  | .idle => acceptTurn s
  | .rdWait =>
    match s.here.answer with
    | none => .next s
    | some a => onReadAnswer a s
  | .wrWait =>
    match s.here.answer with
    | none => .next s
    | some a => .next (onWriteAnswer a s)

/-- Do `f` with instance `n` in focus; a turn of an instance that does not exist does nothing. -/
def State.inFocus (s : State) (n : Nat) (f : State → Host.Outcome State Fault Refusal) :
    Host.Outcome State Fault Refusal :=
  match s.focus n with
  | none => .next s
  | some t => f t

/-- One turn (R4). -/
def runTurn (t : Turn) (s : State) : Host.Outcome State Fault Refusal :=
  match t with
  | .sequencer n => s.inFocus n sequencerTurn
  | .accessor n d => s.inFocus n fun u => u.accessorTurn d
  | .other q => .next (s.perform q)
  | .late k landed => .next (s.lateTurn k landed)
  | .take n => s.inFocus n fun u => .next u.takeTurn
  | .reset n => s.inFocus n fun u => .next u.resetTurn

end Sys2Proof.Machine
end

