-- ==== Sys2Proof/Machine/Step.lean ====
section
/-! DEFINITION. One step of the machine: the next turn (log entry 6, DESIGN CHOICE). -/

namespace Sys2Proof.Machine

/-- One step: the agent whose turn is next moves; with no turn left nobody moves, and a command in flight hangs there
(R107). A step is no unit of time (log entry 19, DEDUCED: safe). -/
def step (s : State) : Host.Outcome State Fault Refusal :=
  match s.turns with
  | [] => .next s
  | t :: ts => runTurn t { s with turns := ts }

/-- `s` with a command word as the next thing its instance in focus accepts: the caller presents the word, the
instance is in `IDLE` with no call of its own on the RowAccessor port, and the next turn is its sequencer's. The word is
the instruction's bits, those above `nbits` being 0 (R50; log entry 21, DESIGN CHOICE). -/
def State.withFetchWord (s : State) (nbits w : Nat) : State :=
  { s with
    here := { s.here with
      phase := .idle
      call := none
      answer := none
      commands := BitVec.ofNat 96 (w % 2 ^ nbits) :: s.here.commands }
    turns := .sequencer s.before.length :: s.turns }

end Sys2Proof.Machine
end

