-- ==== Sys2Proof/Machine/Assembler.lean ====
section
/-! DEFINITION. The textual syntax of the spec's test vectors (R60, R61): the lines of a program, what each assembles
to, and how a response is written. The spec gives the forms of the lines; how spaces and comments may stand in them is
the model's reading (log entry 18, DESIGN CHOICE). -/

namespace Sys2Proof.Machine

/-- A line of a program, with its operands as the numbers that are written (R60). -/
inductive Line where
  | config (bpp : Nat) (order : PackingOrder)
  | setpixel (row col color : Nat)
  | calcCol (col : Nat)
  | merge (col color exist : Nat)
  deriving DecidableEq, Repr

/-- An operand of `n` bits; a number too wide for its field is an assembly error (R60). -/
def operand (n v : Nat) : Option (BitVec n) := if v < 2 ^ n then some (BitVec.ofNat n v) else none

/-- The command a line stands for; none for an operand that is too wide and for the `.config` line, which is no
command (R60, R61). -/
def Line.command : Line → Option Instr
  | .config _ _ => none
  | .setpixel row col color =>
    match operand 16 row, operand 16 col, operand 32 color with
    | some r, some c, some k => some (.setpixel r c k)
    | _, _, _ => none
  | .calcCol col =>
    match operand 16 col with
    | some c => some (.calcCol c)
    | none => none
  | .merge col color exist =>
    match operand 16 col, operand 32 color, operand 8 exist with
    | some c, some k, some e => some (.merge c k e)
    | _, _, _ => none

/-- The one command word a line assembles to (R61). -/
def Line.word (l : Line) : Option CmdWord :=
  match l.command with
  | some i => some (encode i)
  | none => none

/-- The configuration a `.config` line elaborates; none for a depth outside the seven of R6 and for a command line. -/
def Line.configuration : Line → Option Config
  | .config bpp order =>
    match depthOfNat bpp with
    | some d => some ⟨d, order⟩
    | none => none
  | .setpixel _ _ _ => none
  | .calcCol _ => none
  | .merge _ _ _ => none

/-- The words of command lines, one word a line (R61). -/
def assembleWords : List Line → Option (List CmdWord)
  | [] => some []
  | l :: ls =>
    match l.word, assembleWords ls with
    | some w, some ws => some (w :: ws)
    | _, _ => none

/-- A program: one `.config` line, then its command lines (R60). -/
def assemble : List Line → Option (Config × List CmdWord)
  | [] => none
  | l :: ls =>
    match l.configuration, assembleWords ls with
    | some c, some ws => some (c, ws)
    | _, _ => none

/-! ### Reading a line -/

/-- The text before the comment sign. -/
def withoutComment (cs : List Char) : List Char := cs.takeWhile (· ≠ ';')

/-- The text without spaces at either end. -/
def trimmed (cs : List Char) : List Char :=
  (((cs.dropWhile (· = ' ')).reverse).dropWhile (· = ' ')).reverse

/-- The pieces between commas. -/
def commaPieces : List Char → List (List Char)
  | [] => [[]]
  | c :: cs =>
    match commaPieces cs with
    | [] => [[c]]
    | p :: ps => if c = ',' then [] :: p :: ps else (c :: p) :: ps

/-- A decimal digit. -/
def decDigit (c : Char) : Option Nat := if '0' ≤ c ∧ c ≤ '9' then some (c.toNat - '0'.toNat) else none

/-- A hexadecimal digit, of either case. -/
def hexDigit (c : Char) : Option Nat :=
  if '0' ≤ c ∧ c ≤ '9' then some (c.toNat - '0'.toNat)
  else if 'a' ≤ c ∧ c ≤ 'f' then some (c.toNat - 'a'.toNat + 10)
  else if 'A' ≤ c ∧ c ≤ 'F' then some (c.toNat - 'A'.toNat + 10)
  else none

/-- The digits read as a number in base `b`, going on from `acc`. -/
def readDigits (digit : Char → Option Nat) (b acc : Nat) : List Char → Option Nat
  | [] => some acc
  | c :: cs =>
    match digit c with
    | some k => readDigits digit b (acc * b + k) cs
    | none => none

/-- A number: decimal, or hexadecimal after `0x` (R60). -/
def readNumber : List Char → Option Nat
  | [] => none
  | '0' :: 'x' :: [] => none
  | '0' :: 'x' :: cs => readDigits hexDigit 16 0 cs
  | cs => readDigits decDigit 10 0 cs

/-- The value after `<key>=`. -/
def readSetting (key cs : List Char) : Option (List Char) :=
  if (key ++ ['=']).isPrefixOf cs then some (cs.drop (key.length + 1)) else none

/-- `msb` or `lsb` (R60). -/
def readOrder (cs : List Char) : Option PackingOrder :=
  if cs = ['m', 's', 'b'] then some .msbFirst
  else if cs = ['l', 's', 'b'] then some .lsbFirst
  else none

/-- The operands of `.config`: `bpp=<n>` and `order=<msb|lsb>` (R60). -/
def readConfig (a b : List Char) : Option Line :=
  match readSetting ['b', 'p', 'p'] a, readSetting ['o', 'r', 'd', 'e', 'r'] b with
  | some n, some o =>
    match readNumber n, readOrder o with
    | some n, some o => some (.config n o)
    | _, _ => none
  | _, _ => none

/-- A line from its first word and its operands (R60). -/
def readParts (name : List Char) (args : List (List Char)) : Option Line :=
  if name = ['.', 'c', 'o', 'n', 'f', 'i', 'g'] then
    match args with
    | [a, b] => readConfig a b
    | _ => none
  else
    match args.map readNumber with
    | [some a] => if name = ['C', 'A', 'L', 'C'] then some (.calcCol a) else none
    | [some a, some b, some c] =>
      if name = ['S', 'E', 'T', 'P', 'I', 'X', 'E', 'L'] then some (.setpixel a b c)
      else if name = ['M', 'E', 'R', 'G', 'E'] then some (.merge a b c)
      else none
    | _ => none

/-- A line of text (R60): the first word, then the operands between commas. -/
def readLine (cs : List Char) : Option Line :=
  let body := trimmed (withoutComment cs)
  readParts (body.takeWhile (· ≠ ' ')) ((commaPieces (body.dropWhile (· ≠ ' '))).map trimmed)

/-! ### Writing a response -/

/-- A hexadecimal digit as the vectors write it, in capitals. -/
def hexChar (n : Nat) : Char := if n < 10 then Char.ofNat (48 + n) else Char.ofNat (55 + n)

/-- The `k` lowest hexadecimal digits of a number, the highest first. -/
def hexChars : Nat → Nat → List Char
  | 0, _ => []
  | k + 1, n => hexChars k (n / 16) ++ [hexChar (n % 16)]

/-- The name of a status (R60). -/
def statusName : Status → List Char
  | .ok => ['O', 'K']
  | .accErr => ['A', 'C', 'C', '_', 'E', 'R', 'R']
  | .illegal => ['I', 'L', 'L', 'E', 'G', 'A', 'L']

/-- ` shift=S`. -/
def shiftText (r : Response) : List Char := [' ', 's', 'h', 'i', 'f', 't', '=', Char.ofNat (48 + r.shift.toNat)]

/-- ` data=0xDD`. -/
def dataText (r : Response) : List Char := [' ', 'd', 'a', 't', 'a', '=', '0', 'x'] ++ hexChars 2 r.data.toNat

/-- ` err=0xEEEE`. -/
def errText (r : Response) : List Char := [' ', 'e', 'r', 'r', '=', '0', 'x'] ++ hexChars 4 r.err.toNat

/-- The response to a command as the vectors write it: `-> STATUS [shift=S] [data=0xDD] [err=0xEEEE]`, with the fields
the status and the command use (R55, R60). -/
def writeResponse (i : Option Instr) (r : Response) : List Char :=
  ['-', '>', ' '] ++ statusName r.status ++
    match r.status, i with
    | .ok, some (.calcCol _) => shiftText r ++ dataText r
    | .ok, some (.merge _ _ _) => dataText r
    | .ok, some (.setpixel _ _ _) => []
    | .ok, none => []
    | .accErr, _ => errText r
    | .illegal, _ => []

end Sys2Proof.Machine
end

