-- ==== Sys2Proof/Safety.lean ====
section
/-! DEFINITION. The terms the statements are made in: the invariant of the machine, the calls a configuration allows,
the writes a turn performs, the read-to-write window and the caller's precondition `NO_OVERLAP_IN_FLIGHT`, and the
progress of a command. -/

namespace Sys2Proof.Machine

/-! ### The invariant -/

/-- A call the block may issue in a configuration (R58, R84): at a masked depth `COUNT = PPB`, `WDATA[31:8] = 0`, and
`WDATA = 0` on a read; at a direct depth a write of one pixel. -/
def legalCall (d : Depth) (q : Request) : Bool :=
  match d, q.kind with
  | .sub d, .read => decide (q.count = maskedCount d) && decide (q.wdata = 0)
  | .sub d, .write => decide (q.count = maskedCount d) && decide (q.wdata.extractLsb' 8 24 = 0)
  | .wide _, .read => false
  | .wide _, .write => decide (q.count = 1)

/-- The read call a SETPIXEL in flight makes, from its latches; none on the direct path (R79, R82). -/
def Block.readCall (cfg : Config) (b : Block) : Option Request :=
  match cfg.depth with
  | .sub d => some (Machine.readCall d b.lRow b.lCol)
  | .wide _ => none

/-- The write call a SETPIXEL in flight makes, from its latches (R79, R82). -/
def Block.writeCall (cfg : Config) (b : Block) : Request :=
  match cfg.depth with
  | .sub d => writeByteCall d b.lRow b.lCol (mergeAt d cfg.order b.lByte b.lColor b.lCol)
  | .wide _ => writePixelCall b.lRow b.lCol b.lColor

/-- The call `q` is either outstanding or answered, and not both (R44, R105). -/
def Block.waitsFor (b : Block) (q : Request) : Bool :=
  (decide (b.call = some q) && decide (b.answer = none)) || (decide (b.call = none) && b.answer.isSome)

/-- What a block holds in each phase (R17, R26, R44, R79, R82): nothing on the RowAccessor port in `IDLE`, its read
call in `RD_WAIT`, its write call in `WR_WAIT`; an error is kept only under `WRITE_ANY` (R80). -/
def Block.phaseWf (cfg : Config) (policy : ReadFailPolicy) (b : Block) : Bool :=
  match b.phase with
  | .idle => decide (b.call = none) && decide (b.answer = none) && decide (b.readErr = none)
  | .rdWait =>
    decide (b.readErr = none) &&
      match b.readCall cfg with
      | some q => b.waitsFor q
      | none => false
  | .wrWait =>
    b.waitsFor (b.writeCall cfg) &&
      (decide (b.readErr = none) || (decide (policy = .writeAny) && (b.readCall cfg).isSome))

/-- A well-formed block: its phase and ports agree, and every word on its response port is a response (R55, R56). -/
def Block.wf (cfg : Config) (policy : ReadFailPolicy) (b : Block) : Bool :=
  b.phaseWf cfg policy && b.responses.all fun w => (readResponse w).isSome

/-- The framebuffer is the one of the configuration's depth (R28, R29): at a masked depth bytes `FB[row][k]` with `k`
below `65536 / PPB` and no pixels; at a direct depth pixels of `BPP` bits and no bytes. -/
def State.frameWf (s : State) : Bool :=
  match s.cfg.depth with
  | .sub d =>
    decide (s.px = []) &&
      s.fb.all fun c => decide (c.1 < 2 ^ 32) && decide (c.1 % 65536 < 65536 / ppb d)
  | .wide d =>
    decide (s.fb = []) &&
      s.px.all fun c => decide (c.1 < 2 ^ 32) && decide (c.2.toNat < 2 ^ d.bits)

/-- The invariant of the machine: the framebuffer in canonical form and of the right shape, every block well-formed,
every abandoned call a legal one. -/
def State.wf (s : State) : Bool :=
  Memory.wf s.fb && Memory.wf s.px && s.frameWf && (s.blocks.all fun b => b.wf s.cfg s.policy) &&
    s.late.all fun q => legalCall s.cfg.depth q

/-! ### Writes, the window, the precondition -/

/-- The write call that a turn performs on the framebuffer, if any: an answered write call that succeeds or lands, a
write of another agent, an abandoned write that lands (R34, R35, R37, R100). -/
def State.writeOfTurn (s : State) : Turn → Option Request
  | .sequencer _ => none
  | .accessor n d =>
    match s.blocks[n]? with
    | none => none
    | some b =>
      match b.call with
      | none => none
      | some q =>
        if q.kind = .write ∧ (d.st = .ok ∨ d.landed = true) then some q else none
  | .other q => if q.kind = .write then some q else none
  | .late k landed =>
    match s.late[k]? with
    | none => none
    | some q => if q.kind = .write ∧ landed = true then some q else none
  | .take _ => none
  | .reset _ => none

/-- The write performed by the next turn, if any. -/
def State.nextWrite (s : State) : Option Request :=
  match s.turns with
  | [] => none
  | t :: _ => s.writeOfTurn t

/-- The number of the instance in whose name a turn makes its call; none for an agent that is no instance. An abandoned
call has none either, so a write that an instance issued before its reset counts, inside a later window of the same
instance, as a write by another agent: R47 and R103 do not say which it is (log entry 27, DESIGN CHOICE: safe). -/
def Turn.caller : Turn → Option Nat
  | .sequencer _ => none
  | .accessor n _ => some n
  | .other _ => none
  | .late _ _ => none
  | .take _ => none
  | .reset _ => none

/-- The copy of a framebuffer byte that a masked SETPIXEL holds inside its read-to-write window (R24): the byte's
address and the value read. Outside the window there is none; nor under `WRITE_ANY` after a failed read, where nothing
was read. -/
def Block.heldCopy (cfg : Config) (b : Block) : Option (Nat × Byte) :=
  match cfg.depth, b.phase with
  | .sub d, .rdWait =>
    match b.answer with
    | some a => if a.st = .ok then some (fbAddress d b.lRow b.lCol, a.rdata) else none
    | none => none
  | .sub d, .wrWait =>
    if b.call.isSome ∧ b.readErr = none then some (fbAddress d b.lRow b.lCol, b.lByte) else none
  | .sub _, .idle => none
  | .wide _, _ => none

/-- Every copy held inside a window equals the byte it was read from. -/
def State.copiesFresh (s : State) : Bool :=
  s.blocks.all fun b =>
    match b.heldCopy s.cfg with
    | none => true
    | some c => decide (Memory.read s.fb c.1 = c.2)

/-- `NO_OVERLAP_IN_FLIGHT` for one step (R47): no agent but instance `n` itself writes the byte of which instance `n`
holds a copy; a write abandoned by a reset is no instance's own (log entry 27, DESIGN CHOICE: safe). -/
def State.NoOverlapInFlight (s : State) : Prop :=
  ∀ (t : Turn) (ts : List Turn) (q : Request) (n : Nat) (b : Block) (c : Nat × Byte),
    s.turns = t :: ts → s.writeOfTurn t = some q → s.blocks[n]? = some b → t.caller ≠ some n →
    b.heldCopy s.cfg = some c → targetAddress s.cfg.depth q.row q.col ≠ c.1

/-! ### Progress -/

/-- How many more moves, by the RowAccessor and by the sequencer, the command in flight needs at most: each of its calls
is to be answered and the answer received (R44, R107). -/
def Block.remaining (b : Block) : Nat :=
  match b.phase, b.answer with
  | .idle, _ => 0
  | .rdWait, none => 4
  | .rdWait, some _ => 3
  | .wrWait, none => 2
  | .wrWait, some _ => 1

/-- The instance whose ports or latches a turn may change; none for a turn that only concerns the framebuffer (R97). -/
def Turn.actor : Turn → Option Nat
  | .sequencer n => some n
  | .accessor n _ => some n
  | .other _ => none
  | .late _ _ => none
  | .take n => some n
  | .reset n => some n

/-- The two states agree on all that the instances share: the configuration, the policy, the framebuffer, the abandoned
calls and the turns (R97). -/
def State.sharedEq (s u : State) : Prop :=
  s.cfg = u.cfg ∧ s.policy = u.policy ∧ s.fb = u.fb ∧ s.px = u.px ∧ s.late = u.late ∧ s.turns = u.turns

/-- The turn is the move that a command of instance `n` with `r` moves remaining waits for: the RowAccessor's answer
when `r` is even, the sequencer's own move when it is odd. -/
def Turn.serves (n r : Nat) : Turn → Bool
  | .sequencer m => decide (m = n) && decide (r % 2 = 1)
  | .accessor m _ => decide (m = n) && decide (r % 2 = 0)
  | .other _ => false
  | .late _ _ => false
  | .take _ => false
  | .reset _ => false

/-- The turns hold, in order and among any others, the moves that a command of instance `n` with `r` moves remaining
waits for: `ACCESSOR_RESPONDS` for the calls of this command (R107), and the sequencer's own moves. -/
def servedBy (n : Nat) : Nat → List Turn → Bool
  | 0, _ => true
  | _ + 1, [] => false
  | r + 1, t :: ts => if t.serves n (r + 1) then servedBy n r ts else servedBy n (r + 1) ts

/-- `k` steps of the machine. -/
abbrev run (k : Nat) (s : State) : Host.Outcome State Fault Refusal := Host.Core.run Sys2Proof.core k s

end Sys2Proof.Machine
end

