-- ==== Sys2Proof/Certificates/Slice0/Obligations.lean ====
section
/-! DEFINITION. The statements for the provers, each one a rule of the spec or a fact the rules imply. A statement about
a step says whose turn it is through `State.turns`; that turns stand in the state and that one step takes one of them is
the model's choice (log entry 6). -/

open Sys2Proof Sys2Proof.Machine

/-! ### The command word, the response word, the configuration code -/

/-- R50, R53, R54: decoding the word of a command that is legal at a depth gives the command, with every operand. -/
def Obligations.DecodeOfEncodeIsCommand : Prop :=
  ∀ (d : Depth) (i : Instr), i.wf d = true → decode d (encode i) = .ok i

/-- R53, D8: each word has one meaning: a word that decodes is the word of its command, and the command is legal at the
depth (R54). -/
def Obligations.EncodeOfDecodeIsWord : Prop :=
  ∀ (d : Depth) (w : CmdWord) (i : Instr), decode d w = .ok i → encode i = w ∧ i.wf d = true

/-- R53, R54: a word decodes to a SETPIXEL exactly if it matches the table's row for SETPIXEL; to a CALC or a MERGE
exactly if it matches that row and the depth is below 8; to nothing exactly if none of these holds. -/
def Obligations.DecodeAgreesWithOpcodeTable : Prop :=
  ∀ (d : Depth) (w : CmdWord),
    ((∃ row col color, decode d w = .ok (.setpixel row col color)) ↔ rowSetpixel.matchesWord w = true) ∧
    ((∃ col, decode d w = .ok (.calcCol col)) ↔ rowCalc.matchesWord w = true ∧ d.bits < 8) ∧
    ((∃ col color exist, decode d w = .ok (.merge col color exist)) ↔
      rowMerge.matchesWord w = true ∧ d.bits < 8) ∧
    ((∃ c, decode d w = .error c) ↔
      rowSetpixel.matchesWord w = false ∧
      ¬(rowCalc.matchesWord w = true ∧ d.bits < 8) ∧ ¬(rowMerge.matchesWord w = true ∧ d.bits < 8))

/-- R50, R52: the operands of a decoded word are its fields as unsigned numbers: `EXIST` from bit 8, `COL` from bit 32,
`ROW` from bit 48, `COLOR` from bit 64. -/
def Obligations.OperandsAreUnsignedFields : Prop :=
  ∀ (d : Depth) (w : CmdWord),
    (∀ row col color, decode d w = .ok (.setpixel row col color) →
      row.toNat = w.toNat / 2 ^ 48 % 2 ^ 16 ∧ col.toNat = w.toNat / 2 ^ 32 % 2 ^ 16 ∧
      color.toNat = w.toNat / 2 ^ 64) ∧
    (∀ col, decode d w = .ok (.calcCol col) → col.toNat = w.toNat / 2 ^ 32 % 2 ^ 16) ∧
    (∀ col color exist, decode d w = .ok (.merge col color exist) →
      col.toNat = w.toNat / 2 ^ 32 % 2 ^ 16 ∧ color.toNat = w.toNat / 2 ^ 64 ∧
      exist.toNat = w.toNat / 2 ^ 8 % 2 ^ 8)

/-- Some words of 95_test_vectors.md (V1.3, V2.4) decode to the commands they stand for, and some are illegal. Which
cause the decoder names for an illegal word is the model's choice (log entry 17); that the word is illegal is the rule's
(R53, R54). -/
def Obligations.VectorWordsDecode : Prop :=
  decode (.sub .two) 0x000000020000000500000000#96 = .ok (.setpixel 0 5 2) ∧
  decode (.sub .two) 0x000000000000000500000001#96 = .ok (.calcCol 5) ∧
  decode (.sub .two) 0x00000002000000050000FF02#96 = .ok (.merge 5 2 0xFF) ∧
  decode (.sub .two) 0x000000000000000000000003#96 = .error .reservedOp ∧
  decode (.sub .four) 0x000000000000000080000002#96 = .error .reservedBits ∧
  decode (.wide .eight) 0x000000000000000000000001#96 = .error .noCalculator

/-- R55, R56: `STATUS` stands in bits 1 to 0 of a response word (`OK` 0, `ACC_ERR` 1, `ILLEGAL` 2), `SHIFT` in bits 4 to
2, `DATA` in bits 15 to 8, `ERR` in bits 31 to 16, and bits 7 to 5 are 0; reading a word gives back what it was made
of. -/
def Obligations.ResponseWordLayout : Prop :=
  ∀ (r : Response),
    r.word.toNat =
      (match r.status with
        | .ok => 0
        | .accErr => 1
        | .illegal => 2) + 4 * r.shift.toNat + 256 * r.data.toNat + 65536 * r.err.toNat ∧
    readResponse r.word = some r

/-- R57, R91: the configuration code: `cfg[2:0]` from 0 to 6 names the depths 1, 2, 4, 8, 16, 24, 32 and 7 is rejected;
`cfg[3]` names the order; and each configuration is that of its own code. -/
def Obligations.ConfigurationCodes : Prop :=
  (∀ c : BitVec 4,
    (configOfCode c).map (fun g => g.depth.bits) = [1, 2, 4, 8, 16, 24, 32][c.toNat % 8]? ∧
    (∀ g, configOfCode c = some g → (g.order = .lsbFirst ↔ 8 ≤ c.toNat))) ∧
  ∀ g : Config, configOfCode (codeOfConfig g) = some g

/-- R60, R61: a command line assembles to exactly the word of its command when each operand fits its field, and to
nothing when one is too wide. -/
def Obligations.AssembledLinesAreCommandWords : Prop :=
  (∀ row col color : Nat, (Line.setpixel row col color).word =
    if row < 65536 ∧ col < 65536 ∧ color < 4294967296 then
      some (encode (.setpixel (BitVec.ofNat 16 row) (BitVec.ofNat 16 col) (BitVec.ofNat 32 color)))
    else none) ∧
  (∀ col : Nat, (Line.calcCol col).word =
    if col < 65536 then some (encode (.calcCol (BitVec.ofNat 16 col))) else none) ∧
  ∀ col color exist : Nat, (Line.merge col color exist).word =
    if col < 65536 ∧ color < 4294967296 ∧ exist < 256 then
      some (encode (.merge (BitVec.ofNat 16 col) (BitVec.ofNat 32 color) (BitVec.ofNat 8 exist)))
    else none

/-! ### The calculator and the merge -/

/-- R63 to R69: the six shift formulas and the mask, as arithmetic on the column's number. -/
def Obligations.CalculatorFormulas : Prop :=
  ∀ col : Coord,
    (calcOf .one .msbFirst col).1.toNat = 7 - col.toNat % 8 ∧
    (calcOf .one .lsbFirst col).1.toNat = col.toNat % 8 ∧
    (calcOf .two .msbFirst col).1.toNat = 6 - 2 * (col.toNat % 4) ∧
    (calcOf .two .lsbFirst col).1.toNat = 2 * (col.toNat % 4) ∧
    (calcOf .four .msbFirst col).1.toNat = 4 - 4 * (col.toNat % 2) ∧
    (calcOf .four .lsbFirst col).1.toNat = 4 * (col.toNat % 2) ∧
    ∀ (d : SubDepth) (o : PackingOrder),
      (calcOf d o col).2.toNat = (2 ^ d.bits - 1) * 2 ^ (calcOf d o col).1.toNat

/-- R70: the calculator's result depends only on `col mod PPB`. -/
def Obligations.CalculatorReadsOnlyClusterIndex : Prop :=
  ∀ (d : SubDepth) (o : PackingOrder) (c c' : Coord),
    clusterIndex d c = clusterIndex d c' → calcOf d o c = calcOf d o c'

/-- R71: the shift of each order, from the index in the cluster; the mask is the `BPP` bits from the shift up; the masks
of one cluster are pairwise disjoint and together cover the byte. -/
def Obligations.MasksPartitionTheByte : Prop :=
  ∀ (d : SubDepth) (o : PackingOrder) (col : Coord),
    (calcOf d .lsbFirst col).1.toNat = d.bits * clusterIndex d col ∧
    (calcOf d .msbFirst col).1.toNat + d.bits * (clusterIndex d col + 1) = 8 ∧
    (calcOf d .msbFirst col).1.toNat + (calcOf d .lsbFirst col).1.toNat = 8 - d.bits ∧
    d.bits ∣ (calcOf d o col).1.toNat ∧ (calcOf d o col).1.toNat + d.bits ≤ 8 ∧
    (∀ j, (calcOf d o col).2.getLsbD j = true ↔
      (calcOf d o col).1.toNat ≤ j ∧ j < (calcOf d o col).1.toNat + d.bits) ∧
    (∀ col', clusterIndex d col' ≠ clusterIndex d col → (calcOf d o col).2 &&& (calcOf d o col').2 = 0#8) ∧
    (∀ j, j < 8 → ∃ col', byteIndex d col' = byteIndex d col ∧ (calcOf d o col').2.getLsbD j = true) ∧
    (calcOf d o col).2 >>> (calcOf d o col).1 = baseMask d

/-- R74: only the color's low `BPP` bits reach the merged byte: the shifted color under the mask is `(c & BMASK) << s`, where
`BMASK` is `2 ^ BPP - 1`, and `merge(e, c, s, m) = (e & ~m) | ((c & BMASK) << s)`. -/
def Obligations.MergeKeepsOnlyLowColorBits : Prop :=
  ∀ (d : SubDepth) (o : PackingOrder) (e : Byte) (color : Color) (col : Coord),
    (baseMask d).toNat = 2 ^ d.bits - 1 ∧
    ((color.setWidth 40 <<< (calcOf d o col).1).setWidth 8) &&& (calcOf d o col).2 =
      (color.setWidth 8 &&& baseMask d) <<< (calcOf d o col).1 ∧
    mergeAt d o e color col =
      (e &&& ~~~(calcOf d o col).2) ||| ((color.setWidth 8 &&& baseMask d) <<< (calcOf d o col).1)

/-- R75: every bit outside the addressed pixel's group keeps its value. -/
def Obligations.MergePreservesNeighbourBits : Prop :=
  ∀ (d : SubDepth) (o : PackingOrder) (e : Byte) (color : Color) (col : Coord),
    mergeAt d o e color col &&& ~~~(calcOf d o col).2 = e &&& ~~~(calcOf d o col).2

/-- R76: the merged byte reads back as the color's low bits at the column, and as before at every other column of the
cluster. -/
def Obligations.MergedPixelReadsBack : Prop :=
  ∀ (d : SubDepth) (o : PackingOrder) (e : Byte) (color : Color) (col : Coord),
    pixel d o (mergeAt d o e color col) col = color.setWidth 8 &&& baseMask d ∧
    ∀ col' : Coord, clusterIndex d col' ≠ clusterIndex d col →
      pixel d o (mergeAt d o e color col) col' = pixel d o e col'

/-! ### The commands -/

/-- R72: an idle instance of a depth below 8 answers CALC with the shift and the mask; nothing else changes. -/
def Obligations.CalcAnswersShiftAndMask : Prop :=
  ∀ (s : State) (d : SubDepth) (col : Coord), s.cfg.depth = .sub d → s.here.phase = .idle →
    exec (.calcCol col) s = .next { s with here := { s.here with
      responses := s.here.responses ++
        [Response.word ⟨.ok, (calcOf d s.cfg.order col).1, (calcOf d s.cfg.order col).2, 0⟩]
      readErr := none } }

/-- R77: an idle instance of a depth below 8 answers MERGE with the merged byte, `SHIFT` 0; nothing else changes. -/
def Obligations.MergeAnswersMergedByte : Prop :=
  ∀ (s : State) (d : SubDepth) (col : Coord) (color : Color) (exist : Byte),
    s.cfg.depth = .sub d → s.here.phase = .idle →
    exec (.merge col color exist) s = .next { s with here := { s.here with
      responses := s.here.responses ++
        [Response.word ⟨.ok, 0,
          merge exist color (calcOf d s.cfg.order col).1 (calcOf d s.cfg.order col).2, 0⟩]
      readErr := none } }

/-- R54, R89: at a depth of 8 or more an idle instance answers CALC and MERGE with `ILLEGAL`, word `00000002`; nothing
else changes. -/
def Obligations.CalculatorCommandsIllegalOnDirectPath : Prop :=
  ∀ (s : State) (d : WideDepth) (col : Coord) (color : Color) (exist : Byte),
    s.cfg.depth = .wide d → s.here.phase = .idle →
    exec (.calcCol col) s = .next { s with here := { s.here with
      responses := s.here.responses ++ [0x00000002#32], readErr := none } } ∧
    exec (.merge col color exist) s = .next { s with here := { s.here with
      responses := s.here.responses ++ [0x00000002#32], readErr := none } }

/-- R79, R58: accepted on the masked path, SETPIXEL latches its operands, issues the read call of the column as given
with `COUNT` the number of pixels in a byte, and waits in `RD_WAIT`; nothing else changes. -/
def Obligations.SetpixelMaskedIssuesRead : Prop :=
  ∀ (s : State) (d : SubDepth) (row col : Coord) (color : Color),
    s.cfg.depth = .sub d → s.here.phase = .idle →
    exec (.setpixel row col color) s = .next { s with here := { s.here with
      lRow := row, lCol := col, lColor := color
      readErr := none
      call := some ⟨.read, row, col, BitVec.ofNat 4 (8 / d.bits), 0⟩
      answer := none
      phase := .rdWait } }

/-- R82, R58: accepted on the direct path, SETPIXEL latches its operands, issues the write call of the raw color with
`COUNT` 1, and waits in `WR_WAIT`; nothing else changes. -/
def Obligations.SetpixelDirectIssuesWrite : Prop :=
  ∀ (s : State) (d : WideDepth) (row col : Coord) (color : Color),
    s.cfg.depth = .wide d → s.here.phase = .idle →
    exec (.setpixel row col color) s = .next { s with here := { s.here with
      lRow := row, lCol := col, lColor := color
      readErr := none
      call := some ⟨.write, row, col, 1, color⟩
      answer := none
      phase := .wrWait } }

/-- R105: a busy instance accepts no command. The rule has the caller hold the command until it is accepted; that the
meaning of a command at a busy instance is the state unchanged is the model's reading (log entry 13), and no step asks
for it. -/
def Obligations.BusyInstanceAcceptsNothing : Prop :=
  ∀ (i : Instr) (s : State), s.here.phase ≠ .idle → exec i s = .next s

/-- R55, R88: a command an idle instance accepts is either answered in that step, with exactly one response and no call,
or it is in flight, with exactly one call and no response yet. -/
def Obligations.AcceptedCommandAnswersOrWaits : Prop :=
  ∀ (i : Instr) (s t : State), s.here.phase = .idle → exec i s = .next t →
    (t.here.phase = .idle ∧ t.here.call = s.here.call ∧
      ∃ r : Response, t.here.responses = s.here.responses ++ [r.word]) ∨
    (t.here.phase ≠ .idle ∧ t.here.responses = s.here.responses ∧
      ∃ q : Request, t.here.call = some q ∧ legalCall s.cfg.depth q = true)

/-- R23, R85, R97: the frame of the three commands. Accepting a command changes no byte and no pixel of the framebuffer,
no other instance, no abandoned call, no turn, no word the caller holds and not `L_BYTE`; and CALC and MERGE change no
latch and no call. -/
def Obligations.CommandFrame : Prop :=
  ∀ (i : Instr) (s t : State), exec i s = .next t →
    t.cfg = s.cfg ∧ t.policy = s.policy ∧ t.before = s.before ∧ t.after = s.after ∧ t.late = s.late ∧
    t.turns = s.turns ∧ t.here.commands = s.here.commands ∧ t.here.lByte = s.here.lByte ∧
    (∀ a, Memory.read t.fb a = Memory.read s.fb a) ∧ (∀ a, Memory.read t.px a = Memory.read s.px a) ∧
    match i with
    | .setpixel _ _ _ => True
    | .calcCol _ =>
      t.here.phase = s.here.phase ∧ t.here.lRow = s.here.lRow ∧ t.here.lCol = s.here.lCol ∧
        t.here.lColor = s.here.lColor ∧ t.here.call = s.here.call ∧ t.here.answer = s.here.answer
    | .merge _ _ _ =>
      t.here.phase = s.here.phase ∧ t.here.lRow = s.here.lRow ∧ t.here.lCol = s.here.lCol ∧
        t.here.lColor = s.here.lColor ∧ t.here.call = s.here.call ∧ t.here.answer = s.here.answer

/-! ### One step -/

/-- R53, R105: when it is the turn of an idle instance's sequencer and the word presented to it decodes to a command,
the step is the command's meaning in the state with that instance in focus, the turn taken and the word accepted. -/
def Obligations.StepRunsDecodedCommand : Prop :=
  ∀ (s t : State) (n : Nat) (ts : List Turn) (w : CmdWord) (ws : List CmdWord) (i : Instr),
    s.turns = .sequencer n :: ts → ({ s with turns := ts } : State).focus n = some t →
    t.here.phase = .idle → t.here.commands = w :: ws → decode t.cfg.depth w = .ok i →
    step s = exec i { t with here := { t.here with commands := ws } }

/-- R53, R89: when it is the turn of an idle instance's sequencer and the word presented to it does not decode, the word is
accepted and answered `00000002`, with no call and no other effect. -/
def Obligations.StepAnswersIllegalWord : Prop :=
  ∀ (s t : State) (n : Nat) (ts : List Turn) (w : CmdWord) (ws : List CmdWord) (c : IllegalCause),
    s.turns = .sequencer n :: ts → ({ s with turns := ts } : State).focus n = some t →
    t.here.phase = .idle → t.here.commands = w :: ws → decode t.cfg.depth w = .error c →
    step s = .next { t with here := { t.here with
      commands := ws, responses := t.here.responses ++ [0x00000002#32], readErr := none } }

/-- R105, R107: in the turn of a sequencer that waits for a response not yet given, nothing changes but the turn and the
focus: the presented word stays held, and without an answer the wait has no bound. -/
def Obligations.SequencerWaitsForAnswer : Prop :=
  ∀ (s t : State) (n : Nat) (ts : List Turn),
    s.turns = .sequencer n :: ts → ({ s with turns := ts } : State).focus n = some t →
    t.here.phase ≠ .idle → t.here.answer = none → step s = .next t

/-- R79, steps 2 to 4: in the turn of a sequencer whose read has succeeded, it captures the byte, merges the color into it
at the latched column, and issues the write call of the merged byte. -/
def Obligations.ReadSuccessIssuesMergedWrite : Prop :=
  ∀ (s t : State) (n : Nat) (ts : List Turn) (d : SubDepth) (a : Answer),
    s.turns = .sequencer n :: ts → ({ s with turns := ts } : State).focus n = some t →
    t.cfg.depth = .sub d → t.here.phase = .rdWait → t.here.answer = some a → a.st = .ok →
    step s = .next { t with here := { t.here with
      lByte := a.rdata
      readErr := none
      call := some ⟨.write, t.here.lRow, t.here.lCol, BitVec.ofNat 4 (8 / d.bits),
        (merge a.rdata t.here.lColor (calcOf d t.cfg.order t.here.lCol).1
          (calcOf d t.cfg.order t.here.lCol).2).setWidth 32⟩
      answer := none
      phase := .wrWait } }

/-- R80 under `ABORT`, R90: in the turn of a sequencer whose read has failed, it reports the read's error and makes no
write call. -/
def Obligations.ReadFailureAborts : Prop :=
  ∀ (s t : State) (n : Nat) (ts : List Turn) (d : SubDepth) (a : Answer),
    s.turns = .sequencer n :: ts → ({ s with turns := ts } : State).focus n = some t →
    t.cfg.depth = .sub d → t.policy = .abort → t.here.phase = .rdWait → t.here.answer = some a → a.st = .err →
    step s = .next { t with here := { t.here with
      responses := t.here.responses ++ [Response.word ⟨.accErr, 0, 0, a.err⟩]
      readErr := none
      call := none
      answer := none
      phase := .idle } }

/-- R80 under `WRITE_ANY`: in the turn of a sequencer whose read has failed, it captures a byte that nothing constrains,
merges the color into it and issues the write call of the merged byte. That the byte is the one the failing response
drives is the model's choice (log entry 5), and that the read's error is kept in a field until the response is the
model's reading (log entry 12). -/
def Obligations.ReadFailureWritesAnyByte : Prop :=
  ∀ (s t : State) (n : Nat) (ts : List Turn) (d : SubDepth) (a : Answer),
    s.turns = .sequencer n :: ts → ({ s with turns := ts } : State).focus n = some t →
    t.cfg.depth = .sub d → t.policy = .writeAny → t.here.phase = .rdWait → t.here.answer = some a → a.st = .err →
    step s = .next { t with here := { t.here with
      lByte := a.rdata
      readErr := some a.err
      call := some ⟨.write, t.here.lRow, t.here.lCol, BitVec.ofNat 4 (8 / d.bits),
        (merge a.rdata t.here.lColor (calcOf d t.cfg.order t.here.lCol).1
          (calcOf d t.cfg.order t.here.lCol).2).setWidth 32⟩
      answer := none
      phase := .wrWait } }

/-- R79, R81, R82, R83, R92: in the turn of a sequencer whose write is answered, it drives one response and returns to
`IDLE`: the read's error if one is kept, else `OK` or the write's error. That a failed read's error is kept in a field is
the model's reading (log entry 12). -/
def Obligations.WriteAnswerReportsOutcome : Prop :=
  ∀ (s t : State) (n : Nat) (ts : List Turn) (a : Answer),
    s.turns = .sequencer n :: ts → ({ s with turns := ts } : State).focus n = some t →
    t.here.phase = .wrWait → t.here.answer = some a →
    step s = .next { t with here := { t.here with
      responses := t.here.responses ++
        [match t.here.readErr, a.st with
          | some e, _ => Response.word ⟨.accErr, 0, 0, e⟩
          | none, .ok => 0x00000000#32
          | none, .err => Response.word ⟨.accErr, 0, 0, a.err⟩]
      readErr := none
      call := none
      answer := none
      phase := .idle } }

/-! ### The RowAccessor -/

/-- R33, R36, R40: a read call of any instance is answered with the byte that contains the column when it succeeds, with
the drawn error when it fails, and the framebuffer is unchanged in either case. -/
def Obligations.AccessorAnswersRead : Prop :=
  ∀ (s t : State) (n : Nat) (ts : List Turn) (d : SubDepth) (q : Request) (dr : Draw),
    s.turns = .accessor n dr :: ts → ({ s with turns := ts } : State).focus n = some t →
    t.cfg.depth = .sub d → t.here.call = some q → q.kind = .read →
    step s = .next { t with here := { t.here with
      call := none
      answer := some ⟨dr.st, dr.err,
        match dr.st with
        | .ok => Memory.read t.fb (q.row.toNat * 65536 + q.col.toNat / (8 / d.bits))
        | .err => dr.rdata⟩ } }

/-- R34, R37: a masked write call of any instance that succeeds replaces the whole byte that contains the column by
`WDATA[7:0]`; one that fails leaves that byte as it was, or as the call would have it; every other byte reads as before;
and the instance gets one response with the drawn status and error. -/
def Obligations.AccessorPerformsMaskedWrite : Prop :=
  ∀ (s t : State) (n : Nat) (ts : List Turn) (d : SubDepth) (q : Request) (dr : Draw),
    s.turns = .accessor n dr :: ts → ({ s with turns := ts } : State).focus n = some t →
    t.cfg.depth = .sub d → t.here.call = some q → q.kind = .write → Memory.wf t.fb = true →
    ∃ fb, step s = .next { t with
        fb := fb
        here := { t.here with call := none, answer := some ⟨dr.st, dr.err, dr.rdata⟩ } } ∧
      (∀ a, a ≠ fbAddress d q.row q.col → Memory.read fb a = Memory.read t.fb a) ∧
      (dr.st = .ok ∨ dr.landed = true → Memory.read fb (fbAddress d q.row q.col) = q.wdata.setWidth 8) ∧
      (dr.st = .err ∧ dr.landed = false → fb = t.fb)

/-- R35, R37: a direct write call of any instance that succeeds stores `WDATA[BPP-1:0]` as the pixel; one that fails
leaves the pixel as it was, or as the call would have it; every other pixel reads as before; and the instance gets one
response with the drawn status and error. -/
def Obligations.AccessorPerformsDirectWrite : Prop :=
  ∀ (s t : State) (n : Nat) (ts : List Turn) (d : WideDepth) (q : Request) (dr : Draw),
    s.turns = .accessor n dr :: ts → ({ s with turns := ts } : State).focus n = some t →
    t.cfg.depth = .wide d → t.here.call = some q → q.kind = .write → Memory.wf t.px = true →
    ∃ px, step s = .next { t with
        px := px
        here := { t.here with call := none, answer := some ⟨dr.st, dr.err, dr.rdata⟩ } } ∧
      (∀ a, a ≠ pxAddress q.row q.col → Memory.read px a = Memory.read t.px a) ∧
      (dr.st = .ok ∨ dr.landed = true →
        (Memory.read px (pxAddress q.row q.col)).toNat = q.wdata.toNat % 2 ^ d.bits) ∧
      (dr.st = .err ∧ dr.landed = false → px = t.px)

/-- R40: performing the same write call twice in a row leaves the same framebuffer as performing it once. -/
def Obligations.WriteCallIsIdempotent : Prop :=
  ∀ (s : State) (q : Request), Memory.wf s.fb = true → Memory.wf s.px = true →
    (s.store q).store q = s.store q

/-! ### Reset -/

/-- R99, R100, R101: the reset of any instance, in whatever phase, puts it in `IDLE` with no response pending and no call
outstanding; the framebuffer, the other instances and the configuration are untouched. The model's are: the values of the
latches (log entry 3), that the words the caller holds stay held (log entry 8), that responses driven and not taken are
dropped (log entry 9, deduced from R99), that a call not yet performed waits in a list of abandoned calls (log entry 10),
and the field for a failed read's error (log entry 12). -/
def Obligations.ResetReturnsInstanceToIdle : Prop :=
  ∀ (s t : State) (n : Nat) (ts : List Turn),
    s.turns = .reset n :: ts → ({ s with turns := ts } : State).focus n = some t →
    ∃ b : Block, step s = .next { t with here := b, late := t.late ++ t.here.call.toList } ∧
      b.phase = .idle ∧ b.responses = [] ∧ b.call = none ∧ b.answer = none ∧ b.readErr = none ∧
      b.commands = t.here.commands

/-- R55: the caller of any instance takes the response that was driven first, and the others stay in their order. That
responses wait for the caller in a list is the model's choice (log entry 9). -/
def Obligations.CallerTakesOldestResponse : Prop :=
  ∀ (s t : State) (n : Nat) (ts : List Turn) (r : RespWord) (rs : List RespWord),
    s.turns = .take n :: ts → ({ s with turns := ts } : State).focus n = some t → t.here.responses = r :: rs →
    step s = .next { t with here := { t.here with responses := rs } }

/-- R100, R40: an abandoned call is disposed of without a response to any instance: a write lands or it does not, a read
has no effect. That such calls wait in the list `State.late` for a turn that performs or drops one of them is the model's
choice (log entry 10). -/
def Obligations.AbandonedCallLandsOrNot : Prop :=
  ∀ (s : State) (ts : List Turn) (k : Nat) (landed : Bool) (q : Request),
    s.turns = .late k landed :: ts → s.late[k]? = some q →
    ∃ t, step s = .next t ∧ t.blocks = s.blocks ∧ t.late = s.late.eraseIdx k ∧
      (if landed = true ∧ q.kind = .write then t.fb = (s.store q).fb ∧ t.px = (s.store q).px
        else t.fb = s.fb ∧ t.px = s.px)

/-- R26, R99: the model's reset state: every instance in `IDLE` with nothing pending and nothing outstanding, and it
meets the invariant. The configuration, the number of instances and the framebuffer's contents are the model's (log
entries 1, 2 and 4). -/
def Obligations.ResetStateIsWellFormed : Prop :=
  State.reset.wf = true ∧
  ∀ b ∈ State.reset.blocks, b.phase = .idle ∧ b.responses = [] ∧ b.call = none ∧ b.answer = none

/-- R43, R97, R99: the machine after power-up and reset with any configuration, any policy, any number of instances from
one up, and any framebuffer of the configuration's shape meets the invariant. -/
def Obligations.PowerUpIsWellFormed : Prop :=
  ∀ (cfg : Config) (policy : ReadFailPolicy) (n : Nat) (fb : List Host.Cell) (px : List (Nat × Color)),
    Memory.wf fb = true → Memory.wf px = true → (State.powerUp cfg policy n fb px).frameWf = true →
    (State.powerUp cfg policy n fb px).wf = true ∧ (State.powerUp cfg policy n fb px).blocks.length = n + 1

/-! ### The whole machine -/

/-- Every step keeps the invariant `State.wf`: the framebuffer stays canonical and of its shape (R28, R29), each
instance's phase, latches and call agree (R17, R44, R79, R82), every call is one the block may drive (R58, R84), every
response word has a status of R56 and bits 7 to 5 zero (R55). -/
def Obligations.StepKeepsWellFormed : Prop :=
  ∀ s s' : State, s.wf = true → step s = .next s' → s'.wf = true

/-- R88, R94: there is no trap: from every well-formed state a step answers a next state, never a fault and never a
refusal. -/
def Obligations.WellFormedStateNeverStops : Prop :=
  ∀ s : State, s.wf = true → ∃ s', step s = .next s'

/-- R14, R97, R104: no step changes the configuration, the policy or the number of instances. -/
def Obligations.ConfigurationNeverChanges : Prop :=
  ∀ s s' : State, step s = .next s' →
    s'.cfg = s.cfg ∧ s'.policy = s.policy ∧ s'.blocks.length = s.blocks.length

/-- R23, R34, R35, R85, R101: the framebuffer changes only by the write call that the turn performs, and only at the
location that call addresses. -/
def Obligations.FramebufferChangesOnlyAtWrittenLocation : Prop :=
  ∀ s s' : State, step s = .next s' →
    (s.nextWrite = none → s'.fb = s.fb ∧ s'.px = s.px) ∧
    ∀ q, s.nextWrite = some q → ∀ a, a ≠ targetAddress s.cfg.depth q.row q.col →
      Memory.read s'.fb a = Memory.read s.fb a ∧ Memory.read s'.px a = Memory.read s.px a

/-- R97: instances share nothing but the framebuffer behind the RowAccessor. A turn changes no instance but its own, and a
turn of none changes no instance; and a turn reads no instance but its own: in two machines that agree on the
configuration, the framebuffer, the RowAccessor's abandoned calls and the turns, and on the instance whose turn it is,
the step of one is the step of the other in all of these, whatever the other instances hold. -/
def Obligations.InstancesShareOnlyTheFramebuffer : Prop :=
  (∀ (s s' : State) (t : Turn) (ts : List Turn), s.turns = t :: ts → step s = .next s' →
    ∀ m, t.actor ≠ some m → s'.blocks[m]? = s.blocks[m]?) ∧
  ∀ (s u s' : State) (t : Turn) (ts : List Turn), s.turns = t :: ts → s.sharedEq u →
    (∀ n, t.actor = some n → s.blocks[n]? = u.blocks[n]?) → step s = .next s' →
    ∃ u', step u = .next u' ∧ s'.sharedEq u' ∧ ∀ n, t.actor = some n → s'.blocks[n]? = u'.blocks[n]?

/-- R44, R84, R105: an instance comes to have a call outstanding only by its own sequencer's turn, with no call
outstanding before; on the masked path a read comes from `IDLE` and a write from `RD_WAIT`, on the direct path a write
comes from `IDLE`. -/
def Obligations.CallsComeInOrder : Prop :=
  ∀ (s s' : State) (t : Turn) (ts : List Turn) (n : Nat) (b b' : Block) (q : Request),
    s.wf = true → s.turns = t :: ts → step s = .next s' → s.blocks[n]? = some b → s'.blocks[n]? = some b' →
    b'.call = some q → b.call ≠ some q →
    t = .sequencer n ∧ b.call = none ∧ legalCall s.cfg.depth q = true ∧
      match s.cfg.depth, q.kind with
      | .sub _, .read => b.phase = .idle ∧ b'.phase = .rdWait
      | .sub _, .write => b.phase = .rdWait ∧ b'.phase = .wrWait
      | .wide _, .read => False
      | .wide _, .write => b.phase = .idle ∧ b'.phase = .wrWait

/-- R7: on the direct path the packing order has no effect: with the other order the same step does the same. -/
def Obligations.OrderHasNoEffectOnDirectPath : Prop :=
  ∀ (s s' : State) (d : WideDepth) (o : PackingOrder), s.cfg.depth = .wide d → step s = .next s' →
    step { s with cfg := { s.cfg with order := o } } = .next { s' with cfg := { s'.cfg with order := o } }

/-- R55, R88, R105: each accepted command gets exactly one response and none is dropped. But for the caller's taking and
for reset, a step leaves the sum of the words held, the command in flight and the responses driven as it was, and the
responses already driven stay, in their order. That words and responses wait in lists is the model's choice (log entries
8 and 9). -/
def Obligations.EveryCommandGetsOneResponse : Prop :=
  ∀ (s s' : State) (t : Turn) (ts : List Turn) (n : Nat) (b b' : Block),
    s.turns = t :: ts → step s = .next s' → s.blocks[n]? = some b → s'.blocks[n]? = some b' →
    t ≠ .take n → t ≠ .reset n →
    b'.commands.length + (if b'.phase = .idle then 0 else 1) + b'.responses.length =
      b.commands.length + (if b.phase = .idle then 0 else 1) + b.responses.length ∧
    ∃ rs, b'.responses = b.responses ++ rs

/-! ### Whole commands -/

/-- R79: a masked SETPIXEL of any instance whose calls succeed and that no other agent comes between takes five turns,
after which the byte that contains its column is the merge of the byte read with the color, one `OK` response has been
driven, and nothing else has changed but the latches, the accepted word and the focus. That it is five turns is the
model's (log entries 6 and 20). -/
def Obligations.MaskedSetpixelTransaction : Prop :=
  ∀ (s t : State) (n : Nat) (d : SubDepth) (row col : Coord) (color : Color) (ws : List CmdWord) (dr dw : Draw)
    (ts : List Turn),
    s.turns = .sequencer n :: .accessor n dr :: .sequencer n :: .accessor n dw :: .sequencer n :: ts →
    ({ s with turns := ts } : State).focus n = some t →
    t.cfg.depth = .sub d → t.here.phase = .idle → t.here.commands = encode (.setpixel row col color) :: ws →
    dr.st = .ok → dw.st = .ok →
    run 5 s = .next { t with
      fb := Memory.write t.fb (fbAddress d row col)
        (mergeAt d t.cfg.order (Memory.read t.fb (fbAddress d row col)) color col)
      here := { t.here with
        lRow := row, lCol := col, lColor := color
        lByte := Memory.read t.fb (fbAddress d row col)
        commands := ws
        responses := t.here.responses ++ [0x00000000#32]
        readErr := none
        call := none
        answer := none
        phase := .idle } }

/-- R82: a direct SETPIXEL of any instance whose call succeeds takes three turns, after which the pixel is the color's low
`BPP` bits, one `OK` response has been driven, and nothing else has changed but the latches, the accepted word and the
focus. That it is three turns is the model's (log entries 6 and 20). -/
def Obligations.DirectSetpixelTransaction : Prop :=
  ∀ (s t : State) (n : Nat) (d : WideDepth) (row col : Coord) (color : Color) (ws : List CmdWord) (dw : Draw)
    (ts : List Turn),
    s.turns = .sequencer n :: .accessor n dw :: .sequencer n :: ts →
    ({ s with turns := ts } : State).focus n = some t →
    t.cfg.depth = .wide d → t.here.phase = .idle → t.here.commands = encode (.setpixel row col color) :: ws →
    dw.st = .ok →
    run 3 s = .next { t with
      px := Memory.write t.px (pxAddress row col) ((color.setWidth d.bits).setWidth 32)
      here := { t.here with
        lRow := row, lCol := col, lColor := color
        commands := ws
        responses := t.here.responses ++ [0x00000000#32]
        readErr := none
        call := none
        answer := none
        phase := .idle } }

/-- R76, R79, R85: after a masked SETPIXEL of any instance whose read and write both succeed and that no other agent comes
between, its pixel reads as the color's low `BPP` bits and every other pixel of the framebuffer reads as before. The five
turns are the model's (log entries 6 and 20). -/
def Obligations.MaskedSetpixelSetsOnePixel : Prop :=
  ∀ (s t t' : State) (n : Nat) (d : SubDepth) (row col : Coord) (color : Color) (ws : List CmdWord) (dr dw : Draw)
    (ts : List Turn),
    s.turns = .sequencer n :: .accessor n dr :: .sequencer n :: .accessor n dw :: .sequencer n :: ts →
    ({ s with turns := ts } : State).focus n = some t → Memory.wf t.fb = true →
    t.cfg.depth = .sub d → t.here.phase = .idle → t.here.commands = encode (.setpixel row col color) :: ws →
    dr.st = .ok → dw.st = .ok → run 5 s = .next t' →
    pixel d t.cfg.order (Memory.read t'.fb (fbAddress d row col)) col = color.setWidth 8 &&& baseMask d ∧
    ∀ row' col' : Coord, (row', col') ≠ (row, col) →
      pixel d t.cfg.order (Memory.read t'.fb (fbAddress d row' col')) col' =
        pixel d t.cfg.order (Memory.read t.fb (fbAddress d row' col')) col'

/-- R86: two successive successful direct SETPIXELs of one color to one pixel, by any instance, make the same single write
call each, and the second leaves the framebuffer as the first left it, whatever the pixel held before. The three turns of
each are the model's (log entries 6 and 20). -/
def Obligations.DirectSetpixelIsIdempotent : Prop :=
  ∀ (s t : State) (n : Nat) (d : WideDepth) (row col : Coord) (color : Color) (ws : List CmdWord) (dw dw' : Draw)
    (ts : List Turn),
    s.turns = .sequencer n :: .accessor n dw :: .sequencer n :: .sequencer n :: .accessor n dw' ::
      .sequencer n :: ts →
    ({ s with turns := ts } : State).focus n = some t → Memory.wf t.px = true →
    t.cfg.depth = .wide d → t.here.phase = .idle →
    t.here.commands = encode (.setpixel row col color) :: encode (.setpixel row col color) :: ws →
    dw.st = .ok → dw'.st = .ok →
    ∃ t1 t3 t4 t6, run 1 s = .next t1 ∧ run 3 s = .next t3 ∧ run 4 s = .next t4 ∧ run 6 s = .next t6 ∧
      t1.here.call = some ⟨.write, row, col, 1, color⟩ ∧ t4.here.call = t1.here.call ∧
      t6.px = t3.px ∧ t6.fb = t.fb ∧
      (Memory.read t6.px (pxAddress row col)).toNat = color.toNat % 2 ^ d.bits

/-- R46: a write by another agent to the byte, performed after a masked SETPIXEL's read and before its write, is lost:
the byte ends as the merge of the byte read, just as if the other write had not been made. The turns, and that the other
agent's call is one of them, are the model's (log entries 6, 20 and 22). -/
def Obligations.OverlappingWriteIsLost : Prop :=
  ∀ (s t : State) (n : Nat) (d : SubDepth) (row col : Coord) (color : Color) (ws : List CmdWord) (dr dw : Draw)
    (q : Request) (ts : List Turn),
    s.turns = .sequencer n :: .accessor n dr :: .other q :: .sequencer n :: .accessor n dw :: .sequencer n :: ts →
    ({ s with turns := ts } : State).focus n = some t → Memory.wf t.fb = true →
    t.cfg.depth = .sub d → t.here.phase = .idle → t.here.commands = encode (.setpixel row col color) :: ws →
    dr.st = .ok → dw.st = .ok → q.kind = .write → fbAddress d q.row q.col = fbAddress d row col →
    ∃ u u', run 3 s = .next u ∧ Memory.read u.fb (fbAddress d row col) = q.wdata.setWidth 8 ∧
      run 6 s = .next u' ∧
      u'.fb = Memory.write t.fb (fbAddress d row col)
        (mergeAt d t.cfg.order (Memory.read t.fb (fbAddress d row col)) color col) ∧
      u'.here.responses = t.here.responses ++ [0x00000000#32]

/-- R46, R97, program P5: two instances, of any numbers, that both read a byte, in either order, before either writes it:
the later write wins and the earlier instance's pixel is lost, though both report `OK`. `n` is the one that writes last,
whichever it is, so the four orders of P5 that break `NO_OVERLAP_IN_FLIGHT` are all covered. The turns are the model's
(log entries 6 and 20). -/
def Obligations.TwoInstancesLoseAnUpdate : Prop :=
  ∀ (s : State) (n m : Nat) (a b : Block) (d : SubDepth) (row col col' : Coord) (color color' : Color)
    (ws ws' : List CmdWord) (da db da' db' : Draw) (reads ts : List Turn),
    reads = [.sequencer n, .accessor n da, .sequencer m, .accessor m db] ∨
      reads = [.sequencer m, .accessor m db, .sequencer n, .accessor n da] →
    s.turns = reads ++ .sequencer m :: .accessor m db' :: .sequencer m ::
      .sequencer n :: .accessor n da' :: .sequencer n :: ts →
    Memory.wf s.fb = true → s.cfg.depth = .sub d → n ≠ m → s.blocks[n]? = some a → s.blocks[m]? = some b →
    a.phase = .idle → b.phase = .idle → a.commands = encode (.setpixel row col color) :: ws →
    b.commands = encode (.setpixel row col' color') :: ws' → byteIndex d col' = byteIndex d col →
    da.st = .ok → db.st = .ok → da'.st = .ok → db'.st = .ok →
    ∃ t a' b', run 10 s = .next t ∧ t.blocks[n]? = some a' ∧ t.blocks[m]? = some b' ∧
      a'.responses = a.responses ++ [0x00000000#32] ∧ b'.responses = b.responses ++ [0x00000000#32] ∧
      t.fb = Memory.write s.fb (fbAddress d row col)
        (mergeAt d s.cfg.order (Memory.read s.fb (fbAddress d row col)) color col)

/-! ### The window and the caller's precondition -/

/-- R24, R47: as long as the precondition `NO_OVERLAP_IN_FLIGHT` holds, every byte that a masked SETPIXEL holds a copy of
inside its read-to-write window stays equal to the copy. The precondition is read with an abandoned write of the same
instance as a write by another agent, which is the model's choice (log entry 27). -/
def Obligations.WindowCopiesStayFresh : Prop :=
  ∀ s s' : State, s.wf = true → s.copiesFresh = true → s.NoOverlapInFlight → step s = .next s' →
    s'.copiesFresh = true

/-- R47, R75, R79: where the copies are fresh, the write call of a masked SETPIXEL that the RowAccessor performs changes
the byte as it stands by its own pixel alone: it becomes the merge of itself with the color at the column. -/
def Obligations.FreshWriteMergesCurrentByte : Prop :=
  ∀ (s s' : State) (n : Nat) (dr : Draw) (ts : List Turn) (b : Block) (q : Request) (d : SubDepth),
    s.wf = true → s.copiesFresh = true → s.turns = .accessor n dr :: ts → dr.st = .ok →
    s.blocks[n]? = some b → b.phase = .wrWait → b.call = some q → b.readErr = none → s.cfg.depth = .sub d →
    step s = .next s' →
    Memory.read s'.fb (fbAddress d b.lRow b.lCol) =
      mergeAt d s.cfg.order (Memory.read s.fb (fbAddress d b.lRow b.lCol)) b.lColor b.lCol

/-- R88, R107: the command in flight of an instance that is not reset completes, whatever the other agents do, once the
turns hold the RowAccessor's answers to its calls and the sequencer's own moves: it stays in flight up to a step that
drives one response, of status `OK` or `ACC_ERR`, and returns the instance to `IDLE`. What the turns hold is the model's
form of `ACCESSOR_RESPONDS` (log entries 6 and 19). -/
def Obligations.AnsweredCommandCompletes : Prop :=
  ∀ (s : State) (n : Nat) (b : Block), s.wf = true → s.blocks[n]? = some b → b.phase ≠ .idle →
    servedBy n b.remaining s.turns = true → Turn.reset n ∉ s.turns →
    ∃ k t t' bk b' r, k < s.turns.length ∧ run k s = .next t ∧ step t = .next t' ∧
      t.blocks[n]? = some bk ∧ t'.blocks[n]? = some b' ∧
      (∀ j ≤ k, ∃ u c, run j s = .next u ∧ u.blocks[n]? = some c ∧ c.phase ≠ .idle) ∧
      b'.phase = .idle ∧ b'.responses = bk.responses ++ [Response.word r] ∧ r.status ≠ .illegal

/-! ### Other agents -/

/-- R34, R35, R40, R45: a call of an agent that is no instance: a write stores `WDATA[7:0]` as the byte that contains the
column at a masked depth and `WDATA[BPP-1:0]` as the pixel at a direct one, every other location reads as before, a read
changes nothing, and no instance is touched. That such a call is a turn of its own is the model's choice (log entry
22). -/
def Obligations.OtherAgentCallIsPerformed : Prop :=
  ∀ (s : State) (ts : List Turn) (q : Request),
    s.turns = .other q :: ts → Memory.wf s.fb = true → Memory.wf s.px = true →
    ∃ fb px, step s = .next { s with turns := ts, fb := fb, px := px } ∧
      match q.kind, s.cfg.depth with
      | .read, _ => fb = s.fb ∧ px = s.px
      | .write, .sub d =>
        px = s.px ∧ Memory.read fb (fbAddress d q.row q.col) = q.wdata.setWidth 8 ∧
          ∀ a, a ≠ fbAddress d q.row q.col → Memory.read fb a = Memory.read s.fb a
      | .write, .wide d =>
        fb = s.fb ∧ (Memory.read px (pxAddress q.row q.col)).toNat = q.wdata.toNat % 2 ^ d.bits ∧
          ∀ a, a ≠ pxAddress q.row q.col → Memory.read px a = Memory.read s.px a
end

