-- ==== Sys2Proof/Laws/State.lean ====
section
/-! SUPPORT. One lemma per field per update of the state, true by rfl, so that no later proof unfolds a record
update. -/

namespace Sys2Proof.Machine

variable (s : State)

@[simp] theorem State.mapHere_cfg (f : Block → Block) : (s.mapHere f).cfg = s.cfg := rfl
@[simp] theorem State.mapHere_policy (f : Block → Block) : (s.mapHere f).policy = s.policy := rfl
@[simp] theorem State.mapHere_before (f : Block → Block) : (s.mapHere f).before = s.before := rfl
@[simp] theorem State.mapHere_after (f : Block → Block) : (s.mapHere f).after = s.after := rfl
@[simp] theorem State.mapHere_fb (f : Block → Block) : (s.mapHere f).fb = s.fb := rfl
@[simp] theorem State.mapHere_px (f : Block → Block) : (s.mapHere f).px = s.px := rfl
@[simp] theorem State.mapHere_late (f : Block → Block) : (s.mapHere f).late = s.late := rfl
@[simp] theorem State.mapHere_turns (f : Block → Block) : (s.mapHere f).turns = s.turns := rfl
@[simp] theorem State.mapHere_here (f : Block → Block) :
    (s.mapHere f).here = f s.here := rfl
@[simp] theorem State.mapHere_blocks (f : Block → Block) :
    (s.mapHere f).blocks = s.before ++ (f s.here) :: s.after := rfl

@[simp] theorem State.respond_cfg (r : Response) : (s.respond r).cfg = s.cfg := rfl
@[simp] theorem State.respond_policy (r : Response) : (s.respond r).policy = s.policy := rfl
@[simp] theorem State.respond_before (r : Response) : (s.respond r).before = s.before := rfl
@[simp] theorem State.respond_after (r : Response) : (s.respond r).after = s.after := rfl
@[simp] theorem State.respond_fb (r : Response) : (s.respond r).fb = s.fb := rfl
@[simp] theorem State.respond_px (r : Response) : (s.respond r).px = s.px := rfl
@[simp] theorem State.respond_late (r : Response) : (s.respond r).late = s.late := rfl
@[simp] theorem State.respond_turns (r : Response) : (s.respond r).turns = s.turns := rfl
@[simp] theorem State.respond_here (r : Response) :
    (s.respond r).here = { s.here with responses := s.here.responses ++ [r.word], phase := .idle, readErr := none } := rfl
@[simp] theorem State.respond_blocks (r : Response) :
    (s.respond r).blocks = s.before ++ { s.here with responses := s.here.responses ++ [r.word], phase := .idle, readErr := none } :: s.after := rfl

@[simp] theorem State.issue_cfg (q : Request) (p : Phase) : (s.issue q p).cfg = s.cfg := rfl
@[simp] theorem State.issue_policy (q : Request) (p : Phase) : (s.issue q p).policy = s.policy := rfl
@[simp] theorem State.issue_before (q : Request) (p : Phase) : (s.issue q p).before = s.before := rfl
@[simp] theorem State.issue_after (q : Request) (p : Phase) : (s.issue q p).after = s.after := rfl
@[simp] theorem State.issue_fb (q : Request) (p : Phase) : (s.issue q p).fb = s.fb := rfl
@[simp] theorem State.issue_px (q : Request) (p : Phase) : (s.issue q p).px = s.px := rfl
@[simp] theorem State.issue_late (q : Request) (p : Phase) : (s.issue q p).late = s.late := rfl
@[simp] theorem State.issue_turns (q : Request) (p : Phase) : (s.issue q p).turns = s.turns := rfl
@[simp] theorem State.issue_here (q : Request) (p : Phase) :
    (s.issue q p).here = { s.here with call := some q, answer := none, phase := p } := rfl
@[simp] theorem State.issue_blocks (q : Request) (p : Phase) :
    (s.issue q p).blocks = s.before ++ { s.here with call := some q, answer := none, phase := p } :: s.after := rfl

@[simp] theorem State.latch_cfg (row col : Coord) (color : Color) : (s.latch row col color).cfg = s.cfg := rfl
@[simp] theorem State.latch_policy (row col : Coord) (color : Color) : (s.latch row col color).policy = s.policy := rfl
@[simp] theorem State.latch_before (row col : Coord) (color : Color) : (s.latch row col color).before = s.before := rfl
@[simp] theorem State.latch_after (row col : Coord) (color : Color) : (s.latch row col color).after = s.after := rfl
@[simp] theorem State.latch_fb (row col : Coord) (color : Color) : (s.latch row col color).fb = s.fb := rfl
@[simp] theorem State.latch_px (row col : Coord) (color : Color) : (s.latch row col color).px = s.px := rfl
@[simp] theorem State.latch_late (row col : Coord) (color : Color) : (s.latch row col color).late = s.late := rfl
@[simp] theorem State.latch_turns (row col : Coord) (color : Color) : (s.latch row col color).turns = s.turns := rfl
@[simp] theorem State.latch_here (row col : Coord) (color : Color) :
    (s.latch row col color).here = { s.here with lRow := row, lCol := col, lColor := color, readErr := none } := rfl
@[simp] theorem State.latch_blocks (row col : Coord) (color : Color) :
    (s.latch row col color).blocks = s.before ++ { s.here with lRow := row, lCol := col, lColor := color, readErr := none } :: s.after := rfl

@[simp] theorem State.capture_cfg (v : Byte) (e : Option ErrCode) : (s.capture v e).cfg = s.cfg := rfl
@[simp] theorem State.capture_policy (v : Byte) (e : Option ErrCode) : (s.capture v e).policy = s.policy := rfl
@[simp] theorem State.capture_before (v : Byte) (e : Option ErrCode) : (s.capture v e).before = s.before := rfl
@[simp] theorem State.capture_after (v : Byte) (e : Option ErrCode) : (s.capture v e).after = s.after := rfl
@[simp] theorem State.capture_fb (v : Byte) (e : Option ErrCode) : (s.capture v e).fb = s.fb := rfl
@[simp] theorem State.capture_px (v : Byte) (e : Option ErrCode) : (s.capture v e).px = s.px := rfl
@[simp] theorem State.capture_late (v : Byte) (e : Option ErrCode) : (s.capture v e).late = s.late := rfl
@[simp] theorem State.capture_turns (v : Byte) (e : Option ErrCode) : (s.capture v e).turns = s.turns := rfl
@[simp] theorem State.capture_here (v : Byte) (e : Option ErrCode) :
    (s.capture v e).here = { s.here with lByte := v, readErr := e } := rfl
@[simp] theorem State.capture_blocks (v : Byte) (e : Option ErrCode) :
    (s.capture v e).blocks = s.before ++ { s.here with lByte := v, readErr := e } :: s.after := rfl

@[simp] theorem State.setCommands_cfg (ws : List CmdWord) : (s.setCommands ws).cfg = s.cfg := rfl
@[simp] theorem State.setCommands_policy (ws : List CmdWord) : (s.setCommands ws).policy = s.policy := rfl
@[simp] theorem State.setCommands_before (ws : List CmdWord) : (s.setCommands ws).before = s.before := rfl
@[simp] theorem State.setCommands_after (ws : List CmdWord) : (s.setCommands ws).after = s.after := rfl
@[simp] theorem State.setCommands_fb (ws : List CmdWord) : (s.setCommands ws).fb = s.fb := rfl
@[simp] theorem State.setCommands_px (ws : List CmdWord) : (s.setCommands ws).px = s.px := rfl
@[simp] theorem State.setCommands_late (ws : List CmdWord) : (s.setCommands ws).late = s.late := rfl
@[simp] theorem State.setCommands_turns (ws : List CmdWord) : (s.setCommands ws).turns = s.turns := rfl
@[simp] theorem State.setCommands_here (ws : List CmdWord) :
    (s.setCommands ws).here = { s.here with commands := ws } := rfl
@[simp] theorem State.setCommands_blocks (ws : List CmdWord) :
    (s.setCommands ws).blocks = s.before ++ { s.here with commands := ws } :: s.after := rfl

@[simp] theorem State.receive_cfg : s.receive.cfg = s.cfg := rfl
@[simp] theorem State.receive_policy : s.receive.policy = s.policy := rfl
@[simp] theorem State.receive_before : s.receive.before = s.before := rfl
@[simp] theorem State.receive_after : s.receive.after = s.after := rfl
@[simp] theorem State.receive_fb : s.receive.fb = s.fb := rfl
@[simp] theorem State.receive_px : s.receive.px = s.px := rfl
@[simp] theorem State.receive_late : s.receive.late = s.late := rfl
@[simp] theorem State.receive_turns : s.receive.turns = s.turns := rfl
@[simp] theorem State.receive_here :
    s.receive.here = { s.here with call := none, answer := none } := rfl
@[simp] theorem State.receive_blocks :
    s.receive.blocks = s.before ++ { s.here with call := none, answer := none } :: s.after := rfl

@[simp] theorem State.reply_cfg (a : Answer) : (s.reply a).cfg = s.cfg := rfl
@[simp] theorem State.reply_policy (a : Answer) : (s.reply a).policy = s.policy := rfl
@[simp] theorem State.reply_before (a : Answer) : (s.reply a).before = s.before := rfl
@[simp] theorem State.reply_after (a : Answer) : (s.reply a).after = s.after := rfl
@[simp] theorem State.reply_fb (a : Answer) : (s.reply a).fb = s.fb := rfl
@[simp] theorem State.reply_px (a : Answer) : (s.reply a).px = s.px := rfl
@[simp] theorem State.reply_late (a : Answer) : (s.reply a).late = s.late := rfl
@[simp] theorem State.reply_turns (a : Answer) : (s.reply a).turns = s.turns := rfl
@[simp] theorem State.reply_here (a : Answer) :
    (s.reply a).here = { s.here with call := none, answer := some a } := rfl
@[simp] theorem State.reply_blocks (a : Answer) :
    (s.reply a).blocks = s.before ++ { s.here with call := none, answer := some a } :: s.after := rfl

@[simp] theorem State.takeTurn_cfg : s.takeTurn.cfg = s.cfg := rfl
@[simp] theorem State.takeTurn_policy : s.takeTurn.policy = s.policy := rfl
@[simp] theorem State.takeTurn_before : s.takeTurn.before = s.before := rfl
@[simp] theorem State.takeTurn_after : s.takeTurn.after = s.after := rfl
@[simp] theorem State.takeTurn_fb : s.takeTurn.fb = s.fb := rfl
@[simp] theorem State.takeTurn_px : s.takeTurn.px = s.px := rfl
@[simp] theorem State.takeTurn_late : s.takeTurn.late = s.late := rfl
@[simp] theorem State.takeTurn_turns : s.takeTurn.turns = s.turns := rfl
@[simp] theorem State.takeTurn_here :
    s.takeTurn.here = { s.here with responses := s.here.responses.tail } := rfl
@[simp] theorem State.takeTurn_blocks :
    s.takeTurn.blocks = s.before ++ { s.here with responses := s.here.responses.tail } :: s.after := rfl

@[simp] theorem State.resetTurn_cfg : s.resetTurn.cfg = s.cfg := rfl
@[simp] theorem State.resetTurn_policy : s.resetTurn.policy = s.policy := rfl
@[simp] theorem State.resetTurn_before : s.resetTurn.before = s.before := rfl
@[simp] theorem State.resetTurn_after : s.resetTurn.after = s.after := rfl
@[simp] theorem State.resetTurn_fb : s.resetTurn.fb = s.fb := rfl
@[simp] theorem State.resetTurn_px : s.resetTurn.px = s.px := rfl
@[simp] theorem State.resetTurn_turns : s.resetTurn.turns = s.turns := rfl
@[simp] theorem State.resetTurn_late : s.resetTurn.late = s.late ++ s.here.call.toList := rfl
@[simp] theorem State.resetTurn_here :
    s.resetTurn.here = { Block.reset with commands := s.here.commands } := rfl

@[simp] theorem State.store_cfg (q : Request) : (s.store q).cfg = s.cfg := by
  unfold State.store; split <;> rfl
@[simp] theorem State.store_policy (q : Request) : (s.store q).policy = s.policy := by
  unfold State.store; split <;> rfl
@[simp] theorem State.store_before (q : Request) : (s.store q).before = s.before := by
  unfold State.store; split <;> rfl
@[simp] theorem State.store_here (q : Request) : (s.store q).here = s.here := by
  unfold State.store; split <;> rfl
@[simp] theorem State.store_after (q : Request) : (s.store q).after = s.after := by
  unfold State.store; split <;> rfl
@[simp] theorem State.store_late (q : Request) : (s.store q).late = s.late := by
  unfold State.store; split <;> rfl
@[simp] theorem State.store_turns (q : Request) : (s.store q).turns = s.turns := by
  unfold State.store; split <;> rfl
@[simp] theorem State.store_blocks (q : Request) : (s.store q).blocks = s.blocks := by
  unfold State.store; split <;> rfl

@[simp] theorem State.storeIf_cfg (l : Bool) (q : Request) : (s.storeIf l q).cfg = s.cfg := by
  cases l <;> simp [State.storeIf]
@[simp] theorem State.storeIf_policy (l : Bool) (q : Request) : (s.storeIf l q).policy = s.policy := by
  cases l <;> simp [State.storeIf]
@[simp] theorem State.storeIf_before (l : Bool) (q : Request) : (s.storeIf l q).before = s.before := by
  cases l <;> simp [State.storeIf]
@[simp] theorem State.storeIf_here (l : Bool) (q : Request) : (s.storeIf l q).here = s.here := by
  cases l <;> simp [State.storeIf]
@[simp] theorem State.storeIf_after (l : Bool) (q : Request) : (s.storeIf l q).after = s.after := by
  cases l <;> simp [State.storeIf]
@[simp] theorem State.storeIf_late (l : Bool) (q : Request) : (s.storeIf l q).late = s.late := by
  cases l <;> simp [State.storeIf]
@[simp] theorem State.storeIf_turns (l : Bool) (q : Request) : (s.storeIf l q).turns = s.turns := by
  cases l <;> simp [State.storeIf]
@[simp] theorem State.storeIf_blocks (l : Bool) (q : Request) : (s.storeIf l q).blocks = s.blocks := by
  cases l <;> simp [State.storeIf]

@[simp] theorem State.perform_cfg (q : Request) : (s.perform q).cfg = s.cfg := by
  unfold State.perform; split <;> simp
@[simp] theorem State.perform_policy (q : Request) : (s.perform q).policy = s.policy := by
  unfold State.perform; split <;> simp
@[simp] theorem State.perform_before (q : Request) : (s.perform q).before = s.before := by
  unfold State.perform; split <;> simp
@[simp] theorem State.perform_here (q : Request) : (s.perform q).here = s.here := by
  unfold State.perform; split <;> simp
@[simp] theorem State.perform_after (q : Request) : (s.perform q).after = s.after := by
  unfold State.perform; split <;> simp
@[simp] theorem State.perform_late (q : Request) : (s.perform q).late = s.late := by
  unfold State.perform; split <;> simp
@[simp] theorem State.perform_turns (q : Request) : (s.perform q).turns = s.turns := by
  unfold State.perform; split <;> simp
@[simp] theorem State.perform_blocks (q : Request) : (s.perform q).blocks = s.blocks := by
  unfold State.perform; split <;> simp

/-- A command acts in `IDLE` as its effect says. -/
theorem State.whenIdle_idle (t : State) (h : s.here.phase = .idle) : s.whenIdle t = t := if_pos h

/-- A busy instance is left as it is. -/
theorem State.whenIdle_busy (t : State) (h : s.here.phase ≠ .idle) : s.whenIdle t = s := if_neg h

end Sys2Proof.Machine
end

