-- ==== Sys2Proof/Laws/Blocks.lean ====
section
/-! SUPPORT. What bringing an instance into focus does, and what one step can do. -/

namespace Sys2Proof.Machine

/-- Focusing on an instance that exists: it comes to stand in `here`, and nothing else changes. -/
theorem State.focus_eq_some {s t : State} {n : Nat} :
    s.focus n = some t ↔ ∃ b, s.blocks[n]? = some b ∧
      t = { s with before := s.blocks.take n, here := b, after := s.blocks.drop (n + 1) } := by
  unfold State.focus
  rcases h : s.blocks.drop n with _ | ⟨b, rest⟩
  · have hn : s.blocks[n]? = none := by
      rw [List.getElem?_eq_none_iff]; simpa using h
    simp [hn]
  · have hn : s.blocks[n]? = some b := by
      have : (s.blocks.drop n)[0]? = some b := by rw [h]; rfl
      simpa using this
    have hr : s.blocks.drop (n + 1) = rest := by
      rw [← List.drop_drop, h]; rfl
    simp only [hn, hr, Option.some.injEq, exists_eq_left', eq_comm]

/-- There is no instance to focus on past the last. -/
theorem State.focus_eq_none {s : State} {n : Nat} : s.focus n = none ↔ s.blocks[n]? = none := by
  cases h : s.focus n with
  | none =>
    cases hb : s.blocks[n]? with
    | none => simp
    | some b =>
      rw [State.focus_eq_some.2 ⟨b, hb, rfl⟩] at h
      exact absurd h (by simp)
  | some t =>
    obtain ⟨b, hb, -⟩ := State.focus_eq_some.1 h
    simp [hb]

/-- The list of instances is the same from every focus. -/
theorem State.focus_blocks {s t : State} {n : Nat} (h : s.focus n = some t) : t.blocks = s.blocks := by
  obtain ⟨b, hb, rfl⟩ := State.focus_eq_some.1 h
  show s.blocks.take n ++ b :: s.blocks.drop (n + 1) = s.blocks
  obtain ⟨hn, rfl⟩ := List.getElem?_eq_some_iff.1 hb
  simp

/-- The instance in focus has the number of instances before it. -/
theorem State.focus_self (s : State) : s.focus s.before.length = some s := by
  refine State.focus_eq_some.2 ⟨s.here, by simp [State.blocks], ?_⟩
  have h1 : s.blocks.take s.before.length = s.before := by simp [State.blocks]
  have h2 : s.blocks.drop (s.before.length + 1) = s.after := by
    simp [State.blocks]
  rw [h1, h2]

/-- An instance brought into focus has its number of instances before it. -/
theorem State.focus_before_length {s t : State} {n : Nat} (h : s.focus n = some t) : t.before.length = n := by
  obtain ⟨b, hb, rfl⟩ := State.focus_eq_some.1 h
  obtain ⟨hn, -⟩ := List.getElem?_eq_some_iff.1 hb
  simp; omega

/-- A second change of focus forgets the first. -/
theorem State.focus_focus {s t : State} {n : Nat} (h : s.focus n = some t) (m : Nat) : t.focus m = s.focus m := by
  have hb := State.focus_blocks h
  obtain ⟨b, -, rfl⟩ := State.focus_eq_some.1 h
  simp only [State.focus, hb]

/-- Focusing on the instance in focus changes nothing. -/
theorem State.focus_of_length {t : State} {n : Nat} (h : t.before.length = n) : t.focus n = some t := by
  subst h
  exact t.focus_self

/-- Focusing changes none of the shared state. -/
theorem State.focus_shared {s t : State} {n : Nat} (h : s.focus n = some t) :
    t.cfg = s.cfg ∧ t.policy = s.policy ∧ t.fb = s.fb ∧ t.px = s.px ∧ t.late = s.late ∧ t.turns = s.turns := by
  obtain ⟨b, hb, rfl⟩ := State.focus_eq_some.1 h
  exact ⟨rfl, rfl, rfl, rfl, rfl, rfl⟩

/-- The instance brought into focus is the one of that number. -/
theorem State.focus_here {s t : State} {n : Nat} (h : s.focus n = some t) : s.blocks[n]? = some t.here := by
  obtain ⟨b, hb, rfl⟩ := State.focus_eq_some.1 h
  exact hb

/-- After a change of the instance in focus, that instance is changed and the others are not. -/
theorem State.mapHere_block (s : State) (f : Block → Block) (m : Nat) :
    (s.mapHere f).blocks[m]? =
      if m = s.before.length then some (f s.here) else s.blocks[m]? := by
  rw [State.mapHere_blocks, State.blocks]
  by_cases h : m = s.before.length
  · subst h; simp
  · rw [if_neg h]
    rcases Nat.lt_or_gt_of_ne h with hl | hl
    · rw [List.getElem?_append_left hl, List.getElem?_append_left hl]
    · rw [List.getElem?_append_right (by omega), List.getElem?_append_right (by omega)]
      obtain ⟨j, hj⟩ : ∃ j, m - s.before.length = j + 1 := ⟨m - s.before.length - 1, by omega⟩
      simp [hj]

/-- What one step can do: no turn is left and nothing happens, or the next turn is taken from the state without it. -/
theorem step_cases (s : State) :
    (s.turns = [] ∧ step s = .next s) ∨
      ∃ t ts, s.turns = t :: ts ∧ step s = runTurn t { s with turns := ts } := by
  rcases h : s.turns with _ | ⟨t, ts⟩
  · exact .inl ⟨rfl, by simp [step, h]⟩
  · exact .inr ⟨t, ts, rfl, by simp [step, h]⟩

/-- A run goes on from the state after its first step. -/
theorem run_succ {k : Nat} {s t : State} (h : step s = .next t) : run (k + 1) s = run k t := by
  have hs : Sys2Proof.core.step s = .next t := h
  simp only [run, Host.Core.run, hs]
  rfl

/-- A run of no steps stays where it is. -/
theorem run_zero (s : State) : run 0 s = .next s := rfl

/-- A step of a sequencer, with its instance brought into focus. -/
theorem step_sequencer {s t : State} {n : Nat} {ts : List Turn} (h : s.turns = .sequencer n :: ts)
    (hf : ({ s with turns := ts } : State).focus n = some t) : step s = sequencerTurn t := by
  simp only [step, h, runTurn, State.inFocus, hf]

/-- A step of the RowAccessor, with the instance it answers brought into focus. -/
theorem step_accessor {s t : State} {n : Nat} {dr : Draw} {ts : List Turn} (h : s.turns = .accessor n dr :: ts)
    (hf : ({ s with turns := ts } : State).focus n = some t) : step s = t.accessorTurn dr := by
  simp only [step, h, runTurn, State.inFocus, hf]

/-- Focusing does not look at the turns. -/
theorem State.focus_turns {s t : State} {n : Nat} {ts : List Turn}
    (h : ({ s with turns := ts } : State).focus n = some t) (ts' : List Turn) :
    ({ s with turns := ts' } : State).focus n = some { t with turns := ts' } := by
  obtain ⟨b, hb, rfl⟩ := State.focus_eq_some.1 h
  exact State.focus_eq_some.2 ⟨b, hb, rfl⟩

/-- A step whose turn is an instance's is the same with that instance in focus beforehand. -/
theorem step_focus {s t : State} {n : Nat} {tn : Turn} {ts ts' : List Turn} (h : s.turns = tn :: ts)
    (hn : tn.actor = some n) (hf : ({ s with turns := ts' } : State).focus n = some t) :
    step s = step { t with turns := tn :: ts } := by
  have h1 := State.focus_turns hf ts
  have h2 : ({ t with turns := ts } : State).focus n = some { t with turns := ts } :=
    State.focus_of_length (State.focus_before_length h1)
  cases tn <;> cases hn <;> simp only [step, h, runTurn, State.inFocus, h1, h2]

/-- A step in which a caller takes a response. -/
theorem step_take {s t : State} {n : Nat} {ts : List Turn} (h : s.turns = .take n :: ts)
    (hf : ({ s with turns := ts } : State).focus n = some t) : step s = .next t.takeTurn := by
  simp only [step, h, runTurn, State.inFocus, hf]

/-- A step in which an instance is reset. -/
theorem step_reset {s t : State} {n : Nat} {ts : List Turn} (h : s.turns = .reset n :: ts)
    (hf : ({ s with turns := ts } : State).focus n = some t) : step s = .next t.resetTurn := by
  simp only [step, h, runTurn, State.inFocus, hf]

/-- A step in which another agent's call is performed. -/
theorem step_other {s : State} {q : Request} {ts : List Turn} (h : s.turns = .other q :: ts) :
    step s = .next (({ s with turns := ts } : State).perform q) := by
  simp only [step, h, runTurn]

/-- A step whose next turn is that of the instance in focus. -/
theorem step_sequencer_self {s : State} {ts : List Turn} (h : s.turns = .sequencer s.before.length :: ts) :
    step s = sequencerTurn { s with turns := ts } :=
  step_sequencer h (State.focus_self { s with turns := ts })

/-- A step in which the RowAccessor answers the instance in focus. -/
theorem step_accessor_self {s : State} {dr : Draw} {ts : List Turn}
    (h : s.turns = .accessor s.before.length dr :: ts) :
    step s = ({ s with turns := ts } : State).accessorTurn dr :=
  step_accessor h (State.focus_self { s with turns := ts })

/-- What a sequencer's turn can do, when it answers a next state: wait, run a command, refuse an illegal word, go on
after a read, or report after a write. -/
theorem sequencerTurn_cases {s s' : State} (h : sequencerTurn s = .next s') :
    s' = s ∨
    (∃ w ws i, s.here.phase = .idle ∧ s.here.commands = w :: ws ∧ decode s.cfg.depth w = .ok i ∧
      exec i (s.setCommands ws) = .next s') ∨
    (∃ w ws c, s.here.phase = .idle ∧ s.here.commands = w :: ws ∧ decode s.cfg.depth w = .error c ∧
      s' = (s.setCommands ws).respond illegal) ∨
    (∃ a, s.here.phase = .rdWait ∧ s.here.answer = some a ∧ onReadAnswer a s = .next s') ∨
    (∃ a, s.here.phase = .wrWait ∧ s.here.answer = some a ∧ s' = onWriteAnswer a s) := by
  unfold sequencerTurn at h
  split at h
  · rename_i hp
    unfold acceptTurn at h
    split at h
    · exact .inl (by cases h; rfl)
    · rename_i w ws hc
      split at h
      · rename_i i hd
        exact .inr (.inl ⟨w, ws, i, hp, hc, hd, h⟩)
      · rename_i c hd
        cases h
        exact .inr (.inr (.inl ⟨w, ws, c, hp, hc, hd, rfl⟩))
  · rename_i hp
    split at h
    · exact .inl (by cases h; rfl)
    · rename_i a ha
      exact .inr (.inr (.inr (.inl ⟨a, hp, ha, h⟩)))
  · rename_i hp
    split at h
    · exact .inl (by cases h; rfl)
    · rename_i a ha
      cases h
      exact .inr (.inr (.inr (.inr ⟨a, hp, ha, rfl⟩)))

/-- What the receipt of a read's response can do, when it answers a next state: the merge and the write call with the
byte read, the report of a failed read, or the write call with an unread byte. -/
theorem onReadAnswer_cases {s s' : State} {a : Answer} (h : onReadAnswer a s = .next s') :
    ∃ d, s.cfg.depth = .sub d ∧
      ((a.st = .ok ∧ s' = continueMasked d a.rdata none s.receive) ∨
       (a.st = .err ∧ s.policy = .abort ∧ s' = s.receive.respond (accErr a.err)) ∨
       (a.st = .err ∧ s.policy = .writeAny ∧ s' = continueMasked d a.rdata (some a.err) s.receive)) := by
  unfold onReadAnswer at h
  split at h
  · rename_i d hd
    refine ⟨d, hd, ?_⟩
    split at h
    · rename_i hst; cases h; exact .inl ⟨hst, rfl⟩
    · rename_i hst
      split at h
      · rename_i hp; cases h; exact .inr (.inl ⟨hst, hp, rfl⟩)
      · rename_i hp; cases h; exact .inr (.inr ⟨hst, hp, rfl⟩)
  · cases h

/-- What the RowAccessor's turn can do, when it answers a next state: nothing, answer a read with the byte, answer a
read with a failure, or perform and answer a write. -/
theorem accessorTurn_cases {s s' : State} {dr : Draw} (h : s.accessorTurn dr = .next s') :
    (s.here.call = none ∧ s' = s) ∨
    ∃ q, s.here.call = some q ∧
      ((q.kind = .write ∧ s' = s.answerWrite q dr) ∨
       (∃ d, q.kind = .read ∧ s.cfg.depth = .sub d ∧
         ((dr.st = .ok ∧ s' = s.reply ⟨.ok, dr.err, s.fbByte d q.row q.col⟩) ∨
          (dr.st = .err ∧ s' = s.reply ⟨.err, dr.err, dr.rdata⟩)))) := by
  unfold State.accessorTurn at h
  split at h
  · rename_i hc; cases h; exact .inl ⟨hc, rfl⟩
  · rename_i q hc
    refine .inr ⟨q, hc, ?_⟩
    split at h
    · rename_i hk
      unfold State.answerRead at h
      split at h
      · rename_i d hd
        split at h
        · rename_i hst; cases h; exact .inr ⟨d, hk, hd, .inl ⟨hst, rfl⟩⟩
        · rename_i hst; cases h; exact .inr ⟨d, hk, hd, .inr ⟨hst, rfl⟩⟩
      · cases h
    · rename_i hk; cases h; exact .inl ⟨hk, rfl⟩

/-- What a turn done with an instance in focus can do. -/
theorem State.inFocus_cases {s s' : State} {n : Nat} {f : State → Host.Outcome State Fault Refusal}
    (h : s.inFocus n f = .next s') :
    (s.blocks[n]? = none ∧ s' = s) ∨ ∃ t, s.focus n = some t ∧ f t = .next s' := by
  unfold State.inFocus at h
  split at h
  · rename_i hn; cases h; exact .inl ⟨State.focus_eq_none.1 hn, rfl⟩
  · rename_i t ht; exact .inr ⟨t, ht, h⟩

/-- An abandoned call is disposed of by leaving the list, and by being performed if it lands. -/
theorem State.lateTurn_cases (s : State) (k : Nat) (landed : Bool) :
    (s.late[k]? = none ∧ s.lateTurn k landed = s) ∨
    ∃ q, s.late[k]? = some q ∧
      ((landed = true ∧ s.lateTurn k landed = ({ s with late := s.late.eraseIdx k }).perform q) ∨
       (landed = false ∧ s.lateTurn k landed = { s with late := s.late.eraseIdx k })) := by
  unfold State.lateTurn
  rcases h : s.late[k]? with _ | q
  · simp
  · cases landed <;> simp

end Sys2Proof.Machine
end

