-- ==== Sys2Proof/Laws/Datapath.lean ====
section
/-! SUPPORT. The two combinational units bit by bit: the column's low bits as remainders, the base masks, and each bit
of a merged byte. -/

namespace Sys2Proof.Machine

@[simp] theorem coord_and_seven (c : Coord) : (c &&& 7).toNat = c.toNat % 8 := by
  rw [BitVec.toNat_and]
  exact Nat.and_two_pow_sub_one_eq_mod c.toNat 3

@[simp] theorem coord_and_three (c : Coord) : (c &&& 3).toNat = c.toNat % 4 := by
  rw [BitVec.toNat_and]
  exact Nat.and_two_pow_sub_one_eq_mod c.toNat 2

@[simp] theorem coord_and_one (c : Coord) : (c &&& 1).toNat = c.toNat % 2 := by
  rw [BitVec.toNat_and]
  exact Nat.and_two_pow_sub_one_eq_mod c.toNat 1

/-- A base mask is the `BPP` low bits (R69). -/
theorem baseMask_bit (d : SubDepth) (j : Nat) : (baseMask d).getLsbD j = decide (j < d.bits) := by
  by_cases h : j < 8
  · revert j; cases d <;> decide
  · rw [BitVec.getLsbD_of_ge _ _ (by omega)]
    have hb : d.bits ≤ 8 := by cases d <;> decide
    exact (decide_eq_false (by omega)).symm

/-- A masked depth's pixels fill the byte (R8). -/
theorem ppb_mul_bits (d : SubDepth) : ppb d * d.bits = 8 := by cases d <;> rfl

/-- Each bit of a merged byte: the shifted color's where the mask is set, the existing byte's elsewhere (R73). -/
theorem merge_bit (e : Byte) (color : Color) (s : Shift) (m : Byte) (j : Nat) (h : j < 8) :
    (merge e color s m).getLsbD j =
      if m.getLsbD j then decide (s.toNat ≤ j) && color.getLsbD (j - s.toNat) else e.getLsbD j := by
  have h40 : j - s.toNat < 40 := by omega
  have hj : j < 40 := by omega
  simp only [merge, BitVec.getLsbD_or, BitVec.getLsbD_and, BitVec.getLsbD_not, BitVec.getLsbD_setWidth,
    BitVec.shiftLeft_eq', BitVec.getLsbD_shiftLeft]
  cases m.getLsbD j <;> simp only [h, hj, h40, decide_true, Bool.true_and, Bool.not_true, Bool.not_false,
    Bool.and_true, Bool.and_false, Bool.or_false, Bool.false_or, if_true, if_false, Bool.false_eq_true]
  simp only [← decide_not, Nat.not_lt]

/-- The byte that a masked write call carries is the byte it stores (R34, R58). -/
@[simp] theorem storedByte_setWidth (b : Byte) : storedByte (b.setWidth 32) = b :=
  BitVec.eq_of_getLsbD_eq fun i hi => by simp [storedByte, hi]

@[simp] theorem okDone_word : okDone.word = 0x00000000#32 := by decide

@[simp] theorem illegal_word : illegal.word = 0x00000002#32 := by decide

end Sys2Proof.Machine
end

