-- ==== Sys2Proof/Laws/Memory.lean ====
section
/-! SUPPORT. The laws of the sparse framebuffer: reading after a write, the canonical form, and that equal readings are
equal data. -/

namespace Sys2Proof.Machine

variable {n : Nat}

/-- A well-formed list's head is not the default value, its other keys lie above it, and its tail is well-formed. -/
theorem Memory.wf_cons {b : Nat} {u : BitVec n} {m : List (Nat × BitVec n)} :
    Memory.wf ((b, u) :: m) = true ↔ u ≠ 0#n ∧ (∀ c ∈ m, b < c.1) ∧ Memory.wf m = true := by
  simp [Memory.wf, and_assoc]

/-- A key below every listed key reads as 0. -/
theorem Memory.read_below (m : List (Nat × BitVec n)) (a : Nat) (h : ∀ c ∈ m, a < c.1) :
    Memory.read m a = 0#n := by
  induction m with
  | nil => rfl
  | cons c m ih =>
    have hne : c.1 ≠ a := by have := h c (by simp); omega
    simp only [Memory.read, hne, if_false]
    exact ih fun c hc => h c (by simp [hc])

/-- Reading a key just written gives the value written. -/
theorem Memory.read_write_same (m : List (Nat × BitVec n)) (a : Nat) (v : BitVec n) (h : Memory.wf m = true) :
    Memory.read (Memory.write m a v) a = v := by
  induction m with
  | nil =>
    by_cases hv : v = 0#n
    · simp [Memory.write, Memory.read, hv]
    · simp [Memory.write, Memory.read, hv]
  | cons c m ih =>
    obtain ⟨b, u⟩ := c
    obtain ⟨-, hlt, hm⟩ := Memory.wf_cons.1 h
    unfold Memory.write
    by_cases h1 : a < b
    · by_cases hv : v = 0#n
      · have hne : b ≠ a := by omega
        simp only [h1, hv, if_true, Memory.read, hne, if_false]
        exact Memory.read_below m a fun c hc => by have := hlt c hc; omega
      · simp [h1, hv, Memory.read]
    · by_cases h2 : a = b
      · subst h2
        by_cases hv : v = 0#n
        · simp only [hv, if_true, lt_irrefl, if_false]
          exact Memory.read_below m a hlt
        · simp [hv, Memory.read]
      · have h3 : b ≠ a := fun h => h2 h.symm
        simp only [h1, h2, if_false, Memory.read, h3]
        exact ih hm

/-- A write leaves every other key as it reads. -/
theorem Memory.read_write_other (m : List (Nat × BitVec n)) (a c : Nat) (v : BitVec n) (h : c ≠ a) :
    Memory.read (Memory.write m a v) c = Memory.read m c := by
  induction m with
  | nil =>
    by_cases hv : v = 0#n
    · simp [Memory.write, hv]
    · simp [Memory.write, hv, Memory.read, h.symm]
  | cons e m ih =>
    obtain ⟨b, u⟩ := e
    unfold Memory.write
    by_cases h1 : a < b
    · by_cases hv : v = 0#n
      · simp [h1, hv]
      · simp [h1, hv, Memory.read, h.symm]
    · by_cases h2 : a = b
      · subst h2
        by_cases hv : v = 0#n
        · simp [hv, Memory.read, h.symm]
        · simp [hv, Memory.read, h.symm]
      · simp only [h1, h2, if_false, Memory.read, ih]

/-- The keys of a written list: the key written, or a key it had. -/
theorem Memory.mem_write {m : List (Nat × BitVec n)} {a : Nat} {v : BitVec n} {c : Nat × BitVec n}
    (h : c ∈ Memory.write m a v) : c = (a, v) ∨ c ∈ m := by
  induction m with
  | nil =>
    by_cases hv : v = 0#n
    · simp [Memory.write, hv] at h
    · simpa [Memory.write, hv] using h
  | cons e m ih =>
    obtain ⟨b, u⟩ := e
    unfold Memory.write at h
    split at h
    · split at h
      · exact .inr h
      · simpa using h
    · split at h
      · split at h
        · exact .inr (by simp [h])
        · rcases List.mem_cons.1 h with h | h
          · exact .inl h
          · exact .inr (by simp [h])
      · rcases List.mem_cons.1 h with h | h
        · exact .inr (by simp [h])
        · rcases ih h with h | h
          · exact .inl h
          · exact .inr (by simp [h])

/-- Every write keeps the canonical form. -/
theorem Memory.write_wf (m : List (Nat × BitVec n)) (a : Nat) (v : BitVec n) (h : Memory.wf m = true) :
    Memory.wf (Memory.write m a v) = true := by
  induction m with
  | nil =>
    by_cases hv : v = 0#n
    · simp [Memory.write, Memory.wf, hv]
    · simp [Memory.write, Memory.wf, hv]
  | cons e m ih =>
    obtain ⟨b, u⟩ := e
    obtain ⟨hu, hlt, hm⟩ := Memory.wf_cons.1 h
    unfold Memory.write
    split
    · rename_i hab
      split
      · exact h
      · rename_i hv
        refine Memory.wf_cons.2 ⟨hv, fun c hc => ?_, h⟩
        rcases List.mem_cons.1 hc with rfl | hc
        · exact hab
        · have := hlt c hc; omega
    · rename_i hab
      split
      · rename_i heq
        split
        · exact hm
        · rename_i hv
          exact Memory.wf_cons.2 ⟨hv, by rw [heq]; exact hlt, hm⟩
      · rename_i hne
        refine Memory.wf_cons.2 ⟨hu, fun c hc => ?_, ih hm⟩
        rcases Memory.mem_write hc with rfl | hc
        · show b < a; omega
        · exact hlt c hc

/-- Two well-formed lists that read alike are the same list. -/
theorem Memory.ext {m m' : List (Nat × BitVec n)} (h : Memory.wf m = true) (h' : Memory.wf m' = true)
    (hr : ∀ a, Memory.read m a = Memory.read m' a) : m = m' := by
  induction m generalizing m' with
  | nil =>
    cases m' with
    | nil => rfl
    | cons c m' =>
      obtain ⟨hu, -, -⟩ := Memory.wf_cons.1 h'
      have := hr c.1
      simp only [Memory.read, if_true] at this
      exact absurd this.symm hu
  | cons c m ih =>
    obtain ⟨b, u⟩ := c
    obtain ⟨hu, hlt, hm⟩ := Memory.wf_cons.1 h
    cases m' with
    | nil =>
      have := hr b
      simp only [Memory.read, if_true] at this
      exact absurd this hu
    | cons c' m' =>
      obtain ⟨b', u'⟩ := c'
      obtain ⟨hu', hlt', hm'⟩ := Memory.wf_cons.1 h'
      have hb : b = b' := by
        rcases Nat.lt_trichotomy b b' with hl | he | hl
        · have e := hr b
          rw [Memory.read_below ((b', u') :: m') b fun c hc => by
            rcases List.mem_cons.1 hc with rfl | hc
            · exact hl
            · have := hlt' c hc; omega] at e
          simp only [Memory.read, if_true] at e
          exact absurd e hu
        · exact he
        · have e := hr b'
          rw [Memory.read_below ((b, u) :: m) b' fun c hc => by
            rcases List.mem_cons.1 hc with rfl | hc
            · exact hl
            · have := hlt c hc; omega] at e
          simp only [Memory.read, if_true] at e
          exact absurd e.symm hu'
      subst hb
      have huu : u = u' := by simpa [Memory.read] using hr b
      subst huu
      rw [ih hm hm' fun a => ?_]
      by_cases ha : b = a
      · subst ha
        rw [Memory.read_below m b hlt, Memory.read_below m' b hlt']
      · simpa [Memory.read, ha] using hr a

/-- A second write to a key leaves nothing of the first. -/
theorem Memory.write_write (m : List (Nat × BitVec n)) (a : Nat) (v v' : BitVec n) (h : Memory.wf m = true) :
    Memory.write (Memory.write m a v) a v' = Memory.write m a v' := by
  refine Memory.ext (Memory.write_wf _ _ _ (Memory.write_wf _ _ _ h)) (Memory.write_wf _ _ _ h) fun c => ?_
  by_cases hc : c = a
  · subst hc
    rw [Memory.read_write_same _ _ _ (Memory.write_wf _ _ _ h), Memory.read_write_same _ _ _ h]
  · simp only [Memory.read_write_other _ _ _ _ hc]

end Sys2Proof.Machine
end

