-- ==== Sys2Proof/Laws/Words.lean ====
section
/-! SUPPORT. The fields of the words that the encoder and the response packer build. -/

namespace Sys2Proof

variable (color : Color) (row col : Coord) (exist : Byte) (op : BitVec 2)

/-- Each bit of a packed command word, by the field it lies in (R50). -/
theorem packCommand_bit (i : Nat) :
    (packCommand color row col exist op).getLsbD i =
      if i < 2 then op.getLsbD i
      else if i < 8 then false
      else if i < 16 then exist.getLsbD (i - 8)
      else if i < 32 then false
      else if i < 48 then col.getLsbD (i - 32)
      else if i < 64 then row.getLsbD (i - 48)
      else color.getLsbD (i - 64) := by
  simp only [packCommand, BitVec.getLsbD_cast, BitVec.getLsbD_append, Nat.sub_sub]
  split_ifs <;> first | rfl | omega | exact BitVec.getLsbD_zero

@[simp] theorem opOf_packCommand : opOf (packCommand color row col exist op) = op :=
  BitVec.eq_of_getLsbD_eq fun i hi => by
    simp [opOf, packCommand_bit, hi]

@[simp] theorem reservedLoOf_packCommand : reservedLoOf (packCommand color row col exist op) = 0 :=
  BitVec.eq_of_getLsbD_eq fun i hi => by
    have h : 2 + i < 8 := by omega
    simp [reservedLoOf, packCommand_bit, h]

@[simp] theorem existOf_packCommand : existOf (packCommand color row col exist op) = exist :=
  BitVec.eq_of_getLsbD_eq fun i hi => by
    have h : ¬ 8 + i < 2 ∧ 8 + i < 16 := by omega
    simp [existOf, packCommand_bit, h, hi]

@[simp] theorem reservedHiOf_packCommand : reservedHiOf (packCommand color row col exist op) = 0 :=
  BitVec.eq_of_getLsbD_eq fun i hi => by
    have h : ¬ 16 + i < 2 ∧ ¬ 16 + i < 8 ∧ ¬ 16 + i < 16 ∧ 16 + i < 32 := by omega
    simp [reservedHiOf, packCommand_bit, h]

@[simp] theorem colOf_packCommand : colOf (packCommand color row col exist op) = col :=
  BitVec.eq_of_getLsbD_eq fun i hi => by
    have h : ¬ 32 + i < 2 ∧ ¬ 32 + i < 8 ∧ ¬ 32 + i < 16 ∧ ¬ 32 + i < 32 ∧ 32 + i < 48 := by omega
    simp [colOf, packCommand_bit, h, hi]

@[simp] theorem rowOf_packCommand : rowOf (packCommand color row col exist op) = row :=
  BitVec.eq_of_getLsbD_eq fun i hi => by
    have h : ¬ 48 + i < 2 ∧ ¬ 48 + i < 8 ∧ ¬ 48 + i < 16 ∧ ¬ 48 + i < 32 ∧ ¬ 48 + i < 48 ∧ 48 + i < 64 := by omega
    simp [rowOf, packCommand_bit, h, hi]

@[simp] theorem colorOf_packCommand : colorOf (packCommand color row col exist op) = color :=
  BitVec.eq_of_getLsbD_eq fun i hi => by
    have h : ¬ 64 + i < 2 ∧ ¬ 64 + i < 8 ∧ ¬ 64 + i < 16 ∧ ¬ 64 + i < 32 ∧ ¬ 64 + i < 48 ∧ ¬ 64 + i < 64 := by
      omega
    simp [colorOf, packCommand_bit, h, hi]

/-- A word is the packing of its own fields, where its reserved fields are 0 (R50). -/
theorem packCommand_fields (w : CmdWord) (h1 : reservedLoOf w = 0) (h2 : reservedHiOf w = 0) :
    packCommand (colorOf w) (rowOf w) (colOf w) (existOf w) (opOf w) = w :=
  BitVec.eq_of_getLsbD_eq fun i hi => by
    have r1 : ∀ j, j < 6 → w.getLsbD (2 + j) = false := fun j hj => by
      simpa [reservedLoOf, hj] using congrArg (fun v : BitVec 6 => v.getLsbD j) h1
    have r2 : ∀ j, j < 16 → w.getLsbD (16 + j) = false := fun j hj => by
      simpa [reservedHiOf, hj] using congrArg (fun v : BitVec 16 => v.getLsbD j) h2
    rw [packCommand_bit]
    split_ifs
    · simp [opOf, *]
    · have := r1 (i - 2) (by omega)
      rwa [show 2 + (i - 2) = i by omega, eq_comm] at this
    · have e : i - 8 < 8 := by omega
      simp [existOf, e, show 8 + (i - 8) = i by omega]
    · have := r2 (i - 16) (by omega)
      rwa [show 16 + (i - 16) = i by omega, eq_comm] at this
    · have e : i - 32 < 16 := by omega
      simp [colOf, e, show 32 + (i - 32) = i by omega]
    · have e : i - 48 < 16 := by omega
      simp [rowOf, e, show 48 + (i - 48) = i by omega]
    · have e : i - 64 < 32 := by omega
      simp [colorOf, e, show 64 + (i - 64) = i by omega]

end Sys2Proof

namespace Sys2Proof.Machine

/-- Each bit of a response word, by the field it lies in (R55). -/
theorem Response.word_bit (r : Response) (i : Nat) :
    r.word.getLsbD i =
      if i < 2 then (statusCode r.status).getLsbD i
      else if i < 5 then r.shift.getLsbD (i - 2)
      else if i < 8 then false
      else if i < 16 then r.data.getLsbD (i - 8)
      else r.err.getLsbD (i - 16) := by
  simp only [Response.word, BitVec.getLsbD_cast, BitVec.getLsbD_append, Nat.sub_sub]
  split_ifs <;> first | rfl | omega | exact BitVec.getLsbD_zero

end Sys2Proof.Machine
end

