-- ==== Sys2Proof/Laws/PerInstr.lean ====
section
/-! SUPPORT. What holds of every command as syntax, one lemma per constructor. -/

namespace Sys2Proof.Laws.EncodingMatchesRow

/-- The word of a command matches the command's row of the opcode table (R50, opcode map of 30_encoding.md). -/
def Statement (i : Instr) : Prop := encode i &&& i.row.mask = i.row.pattern

theorem mask_setpixel_bit (j : Nat) (h : j < 96) : rowSetpixel.mask.getLsbD j = decide (j < 32) := by
  revert j; decide

theorem mask_calc_bit (j : Nat) (h : j < 96) : rowCalc.mask.getLsbD j = decide (j < 32 ∨ 48 ≤ j) := by
  revert j; decide

theorem mask_merge_bit (j : Nat) (h : j < 96) :
    rowMerge.mask.getLsbD j = decide (j < 8 ∨ 16 ≤ j ∧ j < 32 ∨ 48 ≤ j ∧ j < 64) := by
  revert j; decide

theorem pattern_bit (op : BitVec 2) (j : Nat) :
    (op.setWidth 96).getLsbD j = (decide (j < 2) && op.getLsbD j) := by
  by_cases h : j < 2
  · simp [h]; omega
  · have : op.getLsbD j = false := BitVec.getLsbD_of_ge op j (by omega)
    simp [h, this]

theorem setpixel (row col : Coord) (color : Color) : Statement (.setpixel row col color) :=
  BitVec.eq_of_getLsbD_eq fun j hj => by
    have hp : rowSetpixel.pattern = (0 : BitVec 2).setWidth 96 := rfl
    simp only [encode, Instr.row, BitVec.getLsbD_and, packCommand_bit, mask_setpixel_bit j hj, hp, pattern_bit]
    split_ifs <;> simp <;> omega

theorem calcCol (col : Coord) : Statement (.calcCol col) :=
  BitVec.eq_of_getLsbD_eq fun j hj => by
    have hp : rowCalc.pattern = (1 : BitVec 2).setWidth 96 := rfl
    simp only [encode, Instr.row, BitVec.getLsbD_and, packCommand_bit, mask_calc_bit j hj, hp, pattern_bit]
    split_ifs with h0 h1 h2 h3 h4 h5 <;> simp [h0] <;> omega

theorem merge (col : Coord) (color : Color) (exist : Byte) : Statement (.merge col color exist) :=
  BitVec.eq_of_getLsbD_eq fun j hj => by
    have hp : rowMerge.pattern = (2 : BitVec 2).setWidth 96 := rfl
    simp only [encode, Instr.row, BitVec.getLsbD_and, packCommand_bit, mask_merge_bit j hj, hp, pattern_bit]
    split_ifs with h0 h1 h2 h3 h4 h5 <;> simp [h0] <;> omega

end Sys2Proof.Laws.EncodingMatchesRow
end

