-- ==== Sys2Proof/Laws/Safety.lean ====
section
/-! SUPPORT. The invariant in the terms its proofs use: what a well-formed block holds in each phase, and how focusing
and changing the instance in focus bear on a well-formed state. -/

namespace Sys2Proof.Machine

/-- A call is outstanding or answered, and not both. -/
theorem Block.waitsFor_iff {b : Block} {q : Request} :
    b.waitsFor q = true ↔
      (b.call = some q ∧ b.answer = none) ∨ (b.call = none ∧ ∃ a, b.answer = some a) := by
  simp [Block.waitsFor, Option.isSome_iff_exists]

/-- A well-formed block in `IDLE` has nothing on the RowAccessor port and keeps no error. -/
theorem Block.wf_idle {cfg : Config} {p : ReadFailPolicy} {b : Block} (h : b.phase = .idle) :
    b.wf cfg p = true ↔ b.call = none ∧ b.answer = none ∧ b.readErr = none ∧
      ∀ w ∈ b.responses, (readResponse w).isSome = true := by
  simp [Block.wf, Block.phaseWf, h, and_assoc]

/-- A well-formed block in `RD_WAIT` is at a masked depth and waits for its read call. -/
theorem Block.wf_rdWait {cfg : Config} {p : ReadFailPolicy} {b : Block} (h : b.phase = .rdWait) :
    b.wf cfg p = true ↔ b.readErr = none ∧
      (∃ d, cfg.depth = .sub d ∧ b.waitsFor (Machine.readCall d b.lRow b.lCol) = true) ∧
      ∀ w ∈ b.responses, (readResponse w).isSome = true := by
  cases hd : cfg.depth <;> simp [Block.wf, Block.phaseWf, Block.readCall, h, hd, and_assoc]

/-- A well-formed block in `WR_WAIT` waits for its write call; it keeps an error only at a masked depth under
`WRITE_ANY`. -/
theorem Block.wf_wrWait {cfg : Config} {p : ReadFailPolicy} {b : Block} (h : b.phase = .wrWait) :
    b.wf cfg p = true ↔ b.waitsFor (b.writeCall cfg) = true ∧
      (b.readErr = none ∨ p = .writeAny ∧ ∃ d, cfg.depth = .sub d) ∧
      ∀ w ∈ b.responses, (readResponse w).isSome = true := by
  cases hd : cfg.depth <;> simp [Block.wf, Block.phaseWf, Block.readCall, h, hd, and_assoc]

/-- The response words of a well-formed block are responses. -/
theorem Block.wf_responses {cfg : Config} {p : ReadFailPolicy} {b : Block} (h : b.wf cfg p = true) :
    ∀ w ∈ b.responses, (readResponse w).isSome = true := by
  simp only [Block.wf, Bool.and_eq_true, List.all_eq_true] at h
  exact h.2

/-- The parts of the invariant. -/
theorem State.wf_iff {s : State} :
    s.wf = true ↔ Memory.wf s.fb = true ∧ Memory.wf s.px = true ∧ s.frameWf = true ∧
      (∀ b ∈ s.blocks, b.wf s.cfg s.policy = true) ∧ ∀ q ∈ s.late, legalCall s.cfg.depth q = true := by
  simp [State.wf, and_assoc]

/-- Every instance of a well-formed state is well-formed. -/
theorem State.wf_block {s : State} (h : s.wf = true) {n : Nat} {b : Block} (hb : s.blocks[n]? = some b) :
    b.wf s.cfg s.policy = true :=
  (State.wf_iff.1 h).2.2.2.1 b (List.mem_of_getElem? hb)

/-- The instance in focus is one of the instances. -/
theorem State.here_mem (s : State) : s.here ∈ s.blocks := by simp [State.blocks]

/-- Well-formedness does not depend on the focus. -/
theorem State.wf_focus {s t : State} {n : Nat} (hf : s.focus n = some t) : t.wf = s.wf := by
  obtain ⟨e1, e2, e3, e4, e5, -⟩ := State.focus_shared hf
  simp only [State.wf, State.frameWf, e1, e2, e3, e4, e5, State.focus_blocks hf]

/-- A change of the instance in focus keeps the invariant if it keeps that instance well-formed. -/
theorem State.wf_mapHere {s : State} {f : Block → Block} (h : s.wf = true)
    (hf : (f s.here).wf s.cfg s.policy = true) : (s.mapHere f).wf = true := by
  obtain ⟨h1, h2, h3, h4, h5⟩ := State.wf_iff.1 h
  refine State.wf_iff.2 ⟨h1, h2, h3, fun b hb => ?_, h5⟩
  simp only [State.mapHere_blocks, List.mem_append, List.mem_cons] at hb
  rcases hb with hb | rfl | hb
  · exact h4 b (by simp [State.blocks, hb])
  · exact hf
  · exact h4 b (by simp [State.blocks, hb])

end Sys2Proof.Machine
end

