-- ==== Sys2Proof/Laws/Turns.lean ====
section
/-! SUPPORT. What the turns of one instance may touch, what a run is made of, and the terms of Safety.lean in the form
their proofs use. -/

namespace Sys2Proof.Machine

/-- A command's meaning changes nothing outside the instance in focus. -/
theorem exec_mapHere {i : Instr} {s t : State} (h : exec i s = .next t) : ∃ f, t = s.mapHere f := by
  cases i <;> simp only [exec, execSetpixel, execCalc, execMerge, State.whenIdle] at h <;> split at h <;>
    split at h <;> cases h
  all_goals exact ⟨fun _ => _, rfl⟩

/-- A sequencer's turn changes nothing outside its instance. -/
theorem sequencerTurn_mapHere {s t : State} (h : sequencerTurn s = .next t) : ∃ f, t = s.mapHere f := by
  rcases sequencerTurn_cases h with rfl | ⟨w, ws, i, hp, hc, hd, hx⟩ | ⟨w, ws, c, hp, hc, hd, rfl⟩ |
    ⟨a, hp, ha, hx⟩ | ⟨a, hp, ha, rfl⟩
  · exact ⟨id, rfl⟩
  · obtain ⟨f, rfl⟩ := exec_mapHere hx
    exact ⟨fun _ => _, rfl⟩
  · exact ⟨fun _ => _, rfl⟩
  · obtain ⟨d, hd, ⟨hs, rfl⟩ | ⟨hs, hpol, rfl⟩ | ⟨hs, hpol, rfl⟩⟩ := onReadAnswer_cases hx <;>
      exact ⟨fun _ => _, rfl⟩
  · exact ⟨fun _ => _, rfl⟩

/-- A step takes exactly its own turn from the turns. -/
theorem step_turns {s s' : State} {t : Turn} {ts : List Turn} (h : s.turns = t :: ts) (hs : step s = .next s') :
    s'.turns = ts := by
  have inFocus : ∀ (n : Nat) (f : State → Host.Outcome State Fault Refusal),
      (∀ u u', f u = .next u' → u'.turns = u.turns) →
      ({ s with turns := ts } : State).inFocus n f = .next s' → s'.turns = ts := by
    intro n f hf hx
    rcases State.inFocus_cases hx with ⟨-, rfl⟩ | ⟨u, hu, hx⟩
    · rfl
    · rw [hf u s' hx, (State.focus_shared hu).2.2.2.2.2]
  simp only [step, h] at hs
  cases t with
  | sequencer n =>
    refine inFocus n _ (fun u u' hx => ?_) hs
    obtain ⟨f, rfl⟩ := sequencerTurn_mapHere hx
    rfl
  | accessor n dr =>
    refine inFocus n _ (fun u u' hx => ?_) hs
    rcases accessorTurn_cases hx with ⟨-, rfl⟩ | ⟨q, -, ⟨-, rfl⟩ | ⟨d, -, -, ⟨-, rfl⟩ | ⟨-, rfl⟩⟩⟩
    · rfl
    · unfold State.answerWrite
      split <;> simp
    · rfl
    · rfl
  | other q =>
    cases hs
    unfold State.perform
    split <;> simp
  | late k landed =>
    cases hs
    rcases State.lateTurn_cases ({ s with turns := ts } : State) k landed with
      ⟨-, e⟩ | ⟨q, -, ⟨-, e⟩ | ⟨-, e⟩⟩ <;> rw [e]
    unfold State.perform
    split <;> simp
  | take n => exact inFocus n _ (fun u u' hx => by cases hx; rfl) hs
  | reset n => exact inFocus n _ (fun u u' hx => by cases hx; rfl) hs

/-- After a reply, the instance in focus holds the answer and no call, and the others are as they were. -/
theorem State.reply_block {v : State} {a : Answer} {m : Nat} {b : Block} (h : (v.reply a).blocks[m]? = some b) :
    (m = v.before.length ∧ b = { v.here with call := none, answer := some a }) ∨
      (m ≠ v.before.length ∧ v.blocks[m]? = some b) := by
  rw [State.reply, State.mapHere_block] at h
  split at h
  · rename_i hm
    exact .inl ⟨hm, by cases h; rfl⟩
  · rename_i hm
    exact .inr ⟨hm, h⟩

/-- A run splits at any of its states. -/
theorem run_add {k j : Nat} {s t : State} (h : run k s = .next t) : run (k + j) s = run j t := by
  induction k generalizing s with
  | zero =>
    cases h
    rw [Nat.zero_add]
  | succ k ih =>
    rw [show k + 1 + j = k + j + 1 by omega]
    cases hs : step s with
    | next u =>
      rw [run_succ hs] at h ⊢
      exact ih h
    | fault r =>
      have hs' : Sys2Proof.core.step s = .fault r := hs
      simp only [run, Host.Core.run, hs'] at h
      cases h
    | refused r =>
      have hs' : Sys2Proof.core.step s = .refused r := hs
      simp only [run, Host.Core.run, hs'] at h
      cases h

/-- A run whose first turn is an instance's is the same with that instance in focus beforehand. -/
theorem run_focus {s t : State} {n k : Nat} {tn : Turn} {ts ts' : List Turn} (h : s.turns = tn :: ts)
    (hn : tn.actor = some n) (hf : ({ s with turns := ts' } : State).focus n = some t) :
    run (k + 1) s = run (k + 1) { t with turns := tn :: ts } := by
  have hs : Sys2Proof.core.step s = Sys2Proof.core.step { t with turns := tn :: ts } := step_focus h hn hf
  simp only [run, Host.Core.run, hs]
  rfl

/-- What every step keeps, every run keeps. -/
theorem run_keeps {P : State → Prop} (h : ∀ s s', P s → step s = .next s' → P s') {k : Nat} {s t : State}
    (hs : P s) (hr : run k s = .next t) : P t := by
  induction k generalizing s with
  | zero =>
    cases hr
    exact hs
  | succ k ih =>
    cases hn : step s with
    | next u =>
      rw [run_succ hn] at hr
      exact ih (h s u hs hn) hr
    | fault r =>
      have hn' : Sys2Proof.core.step s = .fault r := hn
      simp only [run, Host.Core.run, hn'] at hr
      cases hr
    | refused r =>
      have hn' : Sys2Proof.core.step s = .refused r := hn
      simp only [run, Host.Core.run, hn'] at hr
      cases hr

/-- Every copy held inside a window is fresh, instance by instance. -/
theorem State.copiesFresh_iff {s : State} :
    s.copiesFresh = true ↔ ∀ (n : Nat) (b : Block) (c : Nat × Byte), s.blocks[n]? = some b →
      b.heldCopy s.cfg = some c → Memory.read s.fb c.1 = c.2 := by
  simp only [State.copiesFresh, List.all_eq_true]
  constructor
  · intro h n b c hb hc
    have := h b (List.mem_of_getElem? hb)
    simpa [hc] using this
  · intro h b hb
    obtain ⟨n, hn⟩ := List.getElem?_of_mem hb
    split
    · rfl
    · rename_i c hc
      simpa using h n b c hn hc

/-- No move remains exactly in `IDLE`. -/
theorem Block.remaining_eq_zero {b : Block} : b.remaining = 0 ↔ b.phase = .idle := by
  cases hp : b.phase <;> cases ha : b.answer <;> simp [Block.remaining, hp, ha]

@[simp] theorem servedBy_zero (n : Nat) (ts : List Turn) : servedBy n 0 ts = true := by
  cases ts <;> simp [servedBy]

end Sys2Proof.Machine
end

