-- ==== Sys2Proof/Tests/Slice0.lean ====
section
/-! SUPPORT. The model's own tests: words and values taken from 95_test_vectors.md and from the tables of the rules,
one step at a time, and for each statement with hypotheses a state and operands that meet them all. -/

namespace Sys2Proof.Tests

open Sys2Proof Sys2Proof.Machine

/-! ### Small states -/

/-- Two bits per pixel, most significant first: the source's worked example (V1.3). -/
abbrev bpp2 : Config := ⟨.sub .two, .msbFirst⟩

/-- Four bits per pixel, least significant first (V2.5, failure corners). -/
abbrev bpp4 : Config := ⟨.sub .four, .lsbFirst⟩

/-- Sixteen bits per pixel (V2.6). -/
abbrev bpp16 : Config := ⟨.wide .sixteen, .msbFirst⟩

/-- One instance and the turns to come. -/
def machine (cfg : Config) (b : Block) (ts : List Turn) : State :=
  { State.powerUp cfg .abort 0 [] [] with here := b, turns := ts }

/-- Two instances and the turns to come: instance 0 is idle and in focus, instance 1 is the given one. -/
def second (cfg : Config) (b : Block) (ts : List Turn) : State :=
  { machine cfg { Block.reset with commands := [] } ts with after := [b] }

/-- An idle instance whose caller holds the given words. -/
def idle (ws : List CmdWord) : Block := { Block.reset with commands := ws }

/-- `SETPIXEL 0,5,2` in `RD_WAIT`, its read not yet performed (V1.3). -/
def reading : Block :=
  { Block.reset with phase := .rdWait, lRow := 0, lCol := 5, lColor := 2, call := some ⟨.read, 0, 5, 4, 0⟩ }

/-- The same with the read's response waiting. -/
def readAnswered (a : Answer) : Block := { reading with call := none, answer := some a }

/-- `SETPIXEL 0,5,2` in `WR_WAIT` after a read of `0xFF`, its write not yet performed (V1.3). -/
def writing : Block :=
  { reading with phase := .wrWait, lByte := 0xFF, call := some ⟨.write, 0, 5, 4, 0xEF⟩ }

/-- The same with the write's response waiting. -/
def writeAnswered (a : Answer) : Block := { writing with call := none, answer := some a }

/-- `SETPIXEL 2,3,0x1234ABCD` in `WR_WAIT` on the direct path, its write not yet performed (V2.6). -/
def writingDirect : Block :=
  { Block.reset with
    phase := .wrWait, lRow := 2, lCol := 3, lColor := 0x1234ABCD, call := some ⟨.write, 2, 3, 1, 0x1234ABCD⟩ }

/-- A successful draw; its error value and byte have no meaning. -/
def okDraw : Draw := ⟨.ok, 0x1111, 0x22, false⟩

/-- A failing draw with error `0x0016`, landed or not. -/
def errDraw (landed : Bool) : Draw := ⟨.err, 0x0016, 0x33, landed⟩

/-- The next state of an outcome. -/
def nextOf (o : Host.Outcome State Fault Refusal) : Option State :=
  match o with
  | .next t => some t
  | .fault _ => none
  | .refused _ => none

/-! ### Well-formedness: each check refuses an ill-formed term -/

theorem test_wf_refuses_calc_at_8 : (Instr.calcCol 0).wf (.wide .eight) = false := by decide

theorem test_wf_refuses_merge_at_16 : (Instr.merge 5 0 0).wf (.wide .sixteen) = false := by decide

theorem test_wf_accepts_setpixel_everywhere :
    (Instr.setpixel 0 0 0).wf (.wide .thirtyTwo) = true ∧ (Instr.setpixel 0 0 0).wf (.sub .one) = true := by decide

/-- R57, R91: code 7 in `cfg[2:0]` is rejected whatever `cfg[3]` is. -/
theorem test_configuration_code_7_rejected : configOfCode 0x7 = none ∧ configOfCode 0xF = none := by decide

/-- R6, R91: numbers next to the seven depths are rejected. -/
theorem test_depth_rejects_neighbours :
    [0, 3, 5, 7, 9, 15, 31, 33].map depthOfNat = [none, none, none, none, none, none, none, none] := by decide

/-- R60: an operand too wide for its field is an assembly error. -/
theorem test_operand_too_wide : operand 16 65536 = none ∧ operand 8 256 = none ∧ operand 3 8 = none := by decide

/-! ### Decoding: words of 95_test_vectors.md -/

/-- V1.3, V2.6, V2.4: SETPIXEL. -/
theorem test_decode_setpixel :
    decodeWord 0x000000020000000500000000#96 = .ok (.setpixel 0 5 2) ∧
    decodeWord 0x1234ABCD0002000300000000#96 = .ok (.setpixel 2 3 0x1234ABCD) ∧
    decodeWord 0x000000000000000000000000#96 = .ok (.setpixel 0 0 0) := by decide

/-- V1.2, V2.2: CALC. -/
theorem test_decode_calc :
    decodeWord 0x000000000000000300000001#96 = .ok (.calcCol 3) ∧
    decodeWord 0x00000000000003EB00000001#96 = .ok (.calcCol 1003) := by decide

/-- V2.3: MERGE. -/
theorem test_decode_merge :
    decodeWord 0x00000013000000010000AA02#96 = .ok (.merge 1 0x13 0xAA) ∧
    decodeWord 0xFFFFFFFF0000000100001202#96 = .ok (.merge 1 0xFFFFFFFF 0x12) := by decide

/-- V2.4: the illegal words that are illegal at every depth. -/
theorem test_decode_illegal_words :
    decodeWord 0x000000000000000000000003#96 = .error .reservedOp ∧
    decodeWord 0x000000000000000000000004#96 = .error .reservedBits ∧
    decodeWord 0x000000000000000000000100#96 = .error .unusedExist ∧
    decodeWord 0x000000000000000000010000#96 = .error .reservedBits ∧
    decodeWord 0x000000000001000000000001#96 = .error .unusedRow ∧
    decodeWord 0x000000010000000000000001#96 = .error .unusedColor ∧
    decodeWord 0x000000000000000000000101#96 = .error .unusedExist ∧
    decodeWord 0x000000000001000000000002#96 = .error .unusedRow ∧
    decodeWord 0x000000000000000080000002#96 = .error .reservedBits ∧
    decodeWord 0xFFFFFFFFFFFFFFFFFFFFFFFF#96 = .error .reservedOp := by decide

/-- V2.4: CALC and MERGE on the direct path. -/
theorem test_decode_illegal_at_depth :
    decode (.wide .eight) 0x000000000000000000000001#96 = .error .noCalculator ∧
    decode (.wide .sixteen) 0x000000000000000500000002#96 = .error .noCalculator ∧
    decode (.wide .thirtyTwo) 0x000000000000000000000000#96 = .ok (.setpixel 0 0 0) := by decide

/-- V1.3, V2.3: the encoder writes the words of the vectors. -/
theorem test_encode :
    encode (.setpixel 0 5 2) = 0x000000020000000500000000#96 ∧
    encode (.calcCol 5) = 0x000000000000000500000001#96 ∧
    encode (.merge 5 2 0xFF) = 0x00000002000000050000FF02#96 := by decide

/-- The opcode table's numbering is the word's own (R50). -/
theorem test_decodeTableWord :
    decodeTableWord 96 0x00000002000000050000FF02 = some (.merge 5 2 0xFF) ∧
    decodeTableWord 96 0x000000000000000000000003 = none := by decide

/-- P1 to P4: the configuration codes the programs name. -/
theorem test_configuration_codes :
    configOfCode 0b0001 = some bpp2 ∧ configOfCode 0b1000 = some ⟨.sub .one, .lsbFirst⟩ ∧
    configOfCode 0b0010 = some ⟨.sub .four, .msbFirst⟩ ∧ configOfCode 0b0100 = some bpp16 := by decide

/-- R60: lines of the vectors, with a comment and with both kinds of number. -/
theorem test_readLine :
    readLine "SETPIXEL 0, 2, 0x7FFFFFFD ; step 5".toList = some (.setpixel 0 2 0x7FFFFFFD) ∧
    readLine "CALC 6".toList = some (.calcCol 6) ∧
    readLine "MERGE 5, 2, 0xFF".toList = some (.merge 5 2 0xFF) ∧
    readLine ".config bpp=2, order=msb".toList = some (.config 2 .msbFirst) ∧
    readLine "FILL 1, 2, 3".toList = none := by decide

/-- V1.3, V2.5: responses as the vectors write them. -/
theorem test_writeResponse :
    writeResponse (some (.calcCol 5)) (okCalc 4 0x30) = "-> OK shift=4 data=0x30".toList ∧
    writeResponse (some (.merge 5 2 0xFF)) (okMerge 0xEF) = "-> OK data=0xEF".toList ∧
    writeResponse (some (.setpixel 2 5 9)) (accErr 0x0016) = "-> ACC_ERR err=0x0016".toList := by decide

/-- Program P3: its configuration and its first words; a `.config` line alone configures, and only at the head. -/
theorem test_assemble :
    assemble [.config 4 .msbFirst, .calcCol 0, .merge 1 0xA 0x5F] =
      some (⟨.sub .four, .msbFirst⟩, [0x000000000000000000000001#96, 0x0000000A0000000100005F02#96]) ∧
    assemble [.calcCol 0] = none ∧ assemble [.config 3 .msbFirst, .calcCol 0] = none ∧
    assemble [.config 4 .msbFirst, .config 4 .msbFirst] = none := by decide

/-- R58: the one-bit codes of the RowAccessor port. -/
theorem test_port_codes :
    kindCode .read = 0 ∧ kindCode .write = 1 ∧ accStatusCode .ok = 0 ∧ accStatusCode .err = 1 := by decide

/-! ### The calculator and the merge: tables of the spec -/

/-- R71, the full table: `MSB_FIRST` shift and mask, then `LSB_FIRST` shift and mask, for each index. -/
def tableRow (d : SubDepth) (idx : Nat) : List Nat :=
  let m := calcOf d .msbFirst (BitVec.ofNat 16 idx)
  let l := calcOf d .lsbFirst (BitVec.ofNat 16 idx)
  [m.1.toNat, m.2.toNat, l.1.toNat, l.2.toNat]

theorem test_calc_table_1 : (List.range 8).map (tableRow .one) =
    [[7, 0x80, 0, 0x01], [6, 0x40, 1, 0x02], [5, 0x20, 2, 0x04], [4, 0x10, 3, 0x08],
     [3, 0x08, 4, 0x10], [2, 0x04, 5, 0x20], [1, 0x02, 6, 0x40], [0, 0x01, 7, 0x80]] := by decide

theorem test_calc_table_2_and_4 :
    (List.range 4).map (tableRow .two) =
      [[6, 0xC0, 0, 0x03], [4, 0x30, 2, 0x0C], [2, 0x0C, 4, 0x30], [0, 0x03, 6, 0xC0]] ∧
    (List.range 2).map (tableRow .four) = [[4, 0xF0, 0, 0x0F], [0, 0x0F, 4, 0xF0]] := by decide

/-- V2.2: high columns. -/
theorem test_calc_high_columns :
    calcOf .one .msbFirst 1003 = (4, 0x10) ∧ calcOf .one .lsbFirst 65535 = (7, 0x80) ∧
    calcOf .two .lsbFirst 65535 = (6, 0xC0) ∧ calcOf .four .lsbFirst 1003 = (4, 0xF0) := by decide

/-- V2.3: the merges with ignored color bits, with both orders, and the idempotence corner. -/
theorem test_merge_vectors :
    mergeAt .two .msbFirst 0xFF 2 5 = 0xEF ∧ mergeAt .two .lsbFirst 0x00 1 3 = 0x40 ∧
    mergeAt .one .lsbFirst 0xFF 0xFE 7 = 0x7F ∧ mergeAt .one .lsbFirst 0x00 0xFFFFFFFF 7 = 0x80 ∧
    mergeAt .four .msbFirst 0xAA 0x13 1 = 0xA3 ∧ mergeAt .four .lsbFirst 0x12 0xFFFFFFFF 1 = 0xF2 ∧
    mergeAt .two .msbFirst 0x00 2 65535 = 0x02 ∧ mergeAt .two .msbFirst 0xEF 2 5 = 0xEF := by decide

/-! ### One step -/

/-- V1.2: CALC 0 answers `0000C018`. -/
theorem test_step_calc :
    (nextOf (step (machine bpp2 (idle [0x000000000000000000000001#96]) [.sequencer 0]))).map (·.here.responses) =
      some [0x0000C018#32] := by decide

/-- P4, step 4: CALC on the direct path answers `00000002` and the word is accepted. -/
theorem test_step_calc_illegal :
    (nextOf (step (machine bpp16 (idle [0x000000000000000000000001#96]) [.sequencer 0]))).map
      (fun t => (t.here.responses, t.here.commands, t.here.phase)) = some ([0x00000002#32], [], .idle) := by decide

/-- V1.3: MERGE 5, 2, 0xFF answers `0000EF00`. -/
theorem test_step_merge :
    (nextOf (step (machine bpp2 (idle [0x00000002000000050000FF02#96]) [.sequencer 0]))).map (·.here.responses) =
      some [0x0000EF00#32] := by decide

/-- V1.3: SETPIXEL 0, 5, 2 issues `READ(0,5,4)`. -/
theorem test_step_setpixel_masked :
    (nextOf (step (machine bpp2 (idle [0x000000020000000500000000#96]) [.sequencer 0]))).map
      (fun t => (t.here.call, t.here.phase, t.here.responses)) =
        some (some ⟨.read, 0, 5, 4, 0⟩, .rdWait, []) := by decide

/-- V2.6: SETPIXEL 2, 3, 0x1234ABCD issues `WRITE(2,3,1,0x1234ABCD)`. -/
theorem test_step_setpixel_direct :
    (nextOf (step (machine bpp16 (idle [0x1234ABCD0002000300000000#96]) [.sequencer 0]))).map
      (fun t => (t.here.call, t.here.phase)) = some (some ⟨.write, 2, 3, 1, 0x1234ABCD⟩, .wrWait) := by decide

/-- V1.3: the read is answered with `FB[0][1]`, the byte that contains column 5. -/
theorem test_step_read_answered :
    (nextOf (step { machine bpp2 reading [.accessor 0 okDraw] with fb := [(1, 0xFF)] })).map (·.here.answer) =
      some (some ⟨.ok, 0x1111, 0xFF⟩) := by decide

/-- V1.3: after the read of `0xFF` comes `WRITE(0,5,4,0xEF)`. -/
theorem test_step_merged_write_issued :
    (nextOf (step (machine bpp2 (readAnswered ⟨.ok, 0, 0xFF⟩) [.sequencer 0]))).map (·.here.call) =
      some (some ⟨.write, 0, 5, 4, 0xEF⟩) := by decide

/-- V1.3: the write makes `FB[0][1]` `0xEF`. -/
theorem test_step_write_performed :
    (nextOf (step { machine bpp2 writing [.accessor 0 okDraw] with fb := [(1, 0xFF)] })).map (·.fb) =
      some [(1, 0xEF)] := by decide

/-- V2.6: the direct write stores the low 16 bits. -/
theorem test_step_direct_write_performed :
    (nextOf (step (machine bpp16 writingDirect [.accessor 0 okDraw]))).map (·.px) =
      some [(2 * 65536 + 3, 0x0000ABCD#32)] := by decide

/-- V2.5: a failed read under `ABORT` answers `00160001` and makes no write call. -/
theorem test_step_read_failure_aborts :
    (nextOf (step (machine bpp2 (readAnswered ⟨.err, 0x0016, 0x33⟩) [.sequencer 0]))).map
      (fun t => (t.here.responses, t.here.call, t.here.phase)) = some ([0x00160001#32], none, .idle) := by decide

/-- V2.5: a failed write answers `00050001`. -/
theorem test_step_write_failure_reported :
    (nextOf (step (machine bpp2 (writeAnswered ⟨.err, 0x0005, 0⟩) [.sequencer 0]))).map (·.here.responses) =
      some [0x00050001#32] := by decide

/-- R100: reset in `WR_WAIT` leaves the issued write with the RowAccessor. -/
theorem test_step_reset_in_flight :
    (nextOf (step (machine bpp2 writing [.reset 0]))).map (fun t => (t.here.phase, t.here.responses, t.late)) =
      some (.idle, [], [⟨.write, 0, 5, 4, 0xEF⟩]) := by decide

/-- The next step after `withFetchWord` runs the word's command. -/
theorem test_withFetchWord_runs :
    step (State.reset.withFetchWord 96 0x000000020000000500000000) = exec (.setpixel 0 5 2) State.reset ∧
    step (State.reset.withFetchWord 96 0x00000002000000050000FF02) = exec (.merge 5 2 0xFF) State.reset := ⟨rfl, rfl⟩

/-! ### Witnesses: for each statement with hypotheses, a state and operands that meet them; for a statement with several
clauses, one for each, at the ends of its ranges -/

/-- The operands at their greatest values. -/
theorem witness_DecodeOfEncodeIsCommand :
    (Instr.setpixel 0xFFFF 0xFFFF 0xFFFFFFFF).wf (.wide .thirtyTwo) = true ∧
    (Instr.calcCol 0xFFFF).wf (.sub .one) = true ∧
    (Instr.merge 0xFFFF 0xFFFFFFFF 0xFF).wf (.sub .four) = true := by decide

theorem witness_EncodeOfDecodeIsWord :
    decode (.sub .two) 0x00000002000000050000FF02#96 = .ok (.merge 5 2 0xFF) := by decide

/-- A word of each clause, at a masked and at a direct depth. -/
theorem witness_DecodeAgreesWithOpcodeTable :
    rowSetpixel.matchesWord 0x000000020000000500000000#96 = true ∧
    rowCalc.matchesWord 0x000000000000FFFF00000001#96 = true ∧
    rowMerge.matchesWord 0xFFFFFFFF0000FFFF0000FF02#96 = true ∧
    (Depth.sub .four).bits < 8 ∧ ¬(Depth.wide .eight).bits < 8 ∧
    rowSetpixel.matchesWord 0x000000000000000000000003#96 = false ∧
    rowCalc.matchesWord 0x000000000000000000000003#96 = false ∧
    rowMerge.matchesWord 0x000000000000000000000003#96 = false := by decide

/-- Every field at its greatest value. -/
theorem witness_OperandsAreUnsignedFields :
    decode (.sub .one) 0xFFFFFFFFFFFFFFFF00000000#96 = .ok (.setpixel 0xFFFF 0xFFFF 0xFFFFFFFF) ∧
    decode (.sub .one) 0x000000000000FFFF00000001#96 = .ok (.calcCol 0xFFFF) ∧
    decode (.sub .one) 0xFFFFFFFF0000FFFF0000FF02#96 = .ok (.merge 0xFFFF 0xFFFFFFFF 0xFF) := by decide

/-- The last code that is a configuration, the code that is none, and the least code of `LSB_FIRST`. -/
theorem witness_ConfigurationCodes :
    configOfCode 0x6 = some ⟨.wide .thirtyTwo, .msbFirst⟩ ∧ configOfCode 0x7 = none ∧
    configOfCode 0x8 = some ⟨.sub .one, .lsbFirst⟩ := by decide

/-- The greatest operands that fit, and the least that do not. -/
theorem witness_AssembledLinesAreCommandWords :
    (Line.setpixel 65535 65535 4294967295).word = some 0xFFFFFFFFFFFFFFFF00000000#96 ∧
    (Line.setpixel 65536 0 0).word = none ∧ (Line.setpixel 0 0 4294967296).word = none ∧
    (Line.calcCol 65535).word = some 0x000000000000FFFF00000001#96 ∧ (Line.calcCol 65536).word = none ∧
    (Line.merge 65535 4294967295 255).word = some 0xFFFFFFFF0000FFFF0000FF02#96 ∧
    (Line.merge 0 0 256).word = none := by decide

theorem witness_CalculatorReadsOnlyClusterIndex :
    clusterIndex .two 5 = clusterIndex .two 65533 ∧ clusterIndex .one 0 = clusterIndex .one 65528 := by decide

/-- Another index of the same cluster, and the lowest and the highest bit. -/
theorem witness_MasksPartitionTheByte :
    clusterIndex .two 3 ≠ clusterIndex .two 0 ∧ byteIndex .two 3 = byteIndex .two 0 ∧
    (calcOf .two .msbFirst 3).2.getLsbD 0 = true ∧ (calcOf .two .msbFirst 0).2.getLsbD 7 = true := by decide

theorem witness_MergedPixelReadsBack : clusterIndex .four 1 ≠ clusterIndex .four 0 := by decide

theorem witness_CalcAnswersShiftAndMask :
    (machine bpp2 (idle []) []).cfg.depth = .sub .two ∧ (machine bpp2 (idle []) []).here.phase = .idle := by decide

theorem witness_MergeAnswersMergedByte :
    (machine bpp4 (idle []) []).cfg.depth = .sub .four ∧ (machine bpp4 (idle []) []).here.phase = .idle := by decide

theorem witness_CalculatorCommandsIllegalOnDirectPath :
    (machine bpp16 (idle []) []).cfg.depth = .wide .sixteen ∧ (machine bpp16 (idle []) []).here.phase = .idle := by
  decide

theorem witness_SetpixelMaskedIssuesRead :
    (machine bpp4 (idle []) []).cfg.depth = .sub .four ∧ (machine bpp4 (idle []) []).here.phase = .idle := by decide

theorem witness_SetpixelDirectIssuesWrite :
    (machine bpp16 (idle []) []).cfg.depth = .wide .sixteen ∧ (machine bpp16 (idle []) []).here.phase = .idle := by
  decide

theorem witness_BusyInstanceAcceptsNothing :
    (machine bpp2 reading []).here.phase ≠ .idle ∧ (machine bpp2 writing []).here.phase ≠ .idle := by decide

/-- A command that is answered, and one that is in flight. -/
theorem witness_AcceptedCommandAnswersOrWaits :
    (∃ t, exec (.merge 5 2 0xFF) (machine bpp2 (idle []) []) = .next t ∧ t.here.phase = .idle) ∧
    (∃ t, exec (.setpixel 0 5 2) (machine bpp2 (idle []) []) = .next t ∧ t.here.phase = .rdWait) :=
  ⟨⟨_, rfl, rfl⟩, ⟨_, rfl, rfl⟩⟩

theorem witness_CommandFrame :
    (∃ t, exec (.setpixel 0 5 2) (machine bpp2 (idle []) []) = .next t) ∧
    (∃ t, exec (.calcCol 5) (machine bpp2 (idle []) []) = .next t) ∧
    (∃ t, exec (.merge 5 2 0xFF) (machine bpp2 reading []) = .next t) := ⟨⟨_, rfl⟩, ⟨_, rfl⟩, ⟨_, rfl⟩⟩

/-- The second of two instances runs a CALC. -/
theorem witness_StepRunsDecodedCommand :
    let s : State := { machine bpp2 reading [.sequencer 1] with after := [idle [0x000000000000000500000001#96]] }
    ∃ t, ({ s with turns := [] } : State).focus 1 = some t ∧ t.here.phase = .idle ∧
      t.here.commands = [0x000000000000000500000001#96] ∧
      decode t.cfg.depth 0x000000000000000500000001#96 = .ok (.calcCol 5) := by
  exact ⟨_, rfl, rfl, rfl, by decide⟩

theorem witness_StepAnswersIllegalWord :
    let s : State := machine bpp2 (idle [0x000000000000000000000003#96]) [.sequencer 0]
    ∃ t, ({ s with turns := [] } : State).focus 0 = some t ∧ t.here.phase = .idle ∧
      t.here.commands = [0x000000000000000000000003#96] ∧
      decode t.cfg.depth 0x000000000000000000000003#96 = .error .reservedOp := by
  exact ⟨_, rfl, rfl, rfl, by decide⟩

theorem witness_SequencerWaitsForAnswer :
    ∃ t, ({ machine bpp2 reading [.sequencer 0] with turns := [] } : State).focus 0 = some t ∧
      t.here.phase ≠ .idle ∧ t.here.answer = none := ⟨_, rfl, by decide, rfl⟩

theorem witness_ReadSuccessIssuesMergedWrite :
    let s := second bpp2 (readAnswered ⟨.ok, 0, 0xFF⟩) [.sequencer 1]
    s.turns = [.sequencer 1] ∧ ∃ t, ({ s with turns := [] } : State).focus 1 = some t ∧ t.cfg.depth = .sub .two ∧
      t.here.phase = .rdWait ∧ t.here.answer = some ⟨.ok, 0, 0xFF⟩ := ⟨rfl, _, rfl, rfl, rfl, rfl⟩

theorem witness_ReadFailureAborts :
    let s := second bpp2 (readAnswered ⟨.err, 0x0016, 0x33⟩) [.sequencer 1]
    s.turns = [.sequencer 1] ∧ ∃ t, ({ s with turns := [] } : State).focus 1 = some t ∧ t.cfg.depth = .sub .two ∧
      t.policy = .abort ∧ t.here.phase = .rdWait ∧ t.here.answer = some ⟨.err, 0x0016, 0x33⟩ :=
  ⟨rfl, _, rfl, rfl, rfl, rfl, rfl⟩

theorem witness_ReadFailureWritesAnyByte :
    let s : State := { second bpp2 (readAnswered ⟨.err, 0x0016, 0x33⟩) [.sequencer 1] with policy := .writeAny }
    s.turns = [.sequencer 1] ∧ ∃ t, ({ s with turns := [] } : State).focus 1 = some t ∧ t.cfg.depth = .sub .two ∧
      t.policy = .writeAny ∧ t.here.phase = .rdWait ∧ t.here.answer = some ⟨.err, 0x0016, 0x33⟩ :=
  ⟨rfl, _, rfl, rfl, rfl, rfl, rfl⟩

/-- A write answered `OK`, one answered `ERR`, and one after a failed read under `WRITE_ANY`. -/
theorem witness_WriteAnswerReportsOutcome :
    let s (b : Block) := second bpp2 b [.sequencer 1]
    (∀ b, (s b).turns = [.sequencer 1]) ∧
    (∃ t, ({ s (writeAnswered ⟨.ok, 0, 0⟩) with turns := [] } : State).focus 1 = some t ∧ t.here.phase = .wrWait ∧
      t.here.answer = some ⟨.ok, 0, 0⟩ ∧ t.here.readErr = none) ∧
    (∃ t, ({ s (writeAnswered ⟨.err, 0x0005, 0⟩) with turns := [] } : State).focus 1 = some t ∧
      t.here.phase = .wrWait ∧ t.here.answer = some ⟨.err, 0x0005, 0⟩ ∧ t.here.readErr = none) ∧
    ∃ t, ({ s { writeAnswered ⟨.ok, 0, 0⟩ with readErr := some 0x0016 } with turns := [] } : State).focus 1 = some t ∧
      t.here.phase = .wrWait ∧ t.here.answer = some ⟨.ok, 0, 0⟩ ∧ t.here.readErr = some 0x0016 :=
  ⟨fun _ => rfl, ⟨_, rfl, rfl, rfl, rfl⟩, ⟨_, rfl, rfl, rfl, rfl⟩, ⟨_, rfl, rfl, rfl, rfl⟩⟩

theorem witness_AccessorAnswersRead :
    let s := second bpp2 reading [.accessor 1 (errDraw false)]
    s.turns = [.accessor 1 (errDraw false)] ∧ ∃ t, ({ s with turns := [] } : State).focus 1 = some t ∧
      t.cfg.depth = .sub .two ∧ t.here.call = some ⟨.read, 0, 5, 4, 0⟩ := ⟨rfl, _, rfl, rfl, rfl⟩

/-- A write call; the draw may be a success, a failure that lands, a failure that does not. -/
theorem witness_AccessorPerformsMaskedWrite :
    let s (dr : Draw) := second bpp2 writing [.accessor 1 dr]
    (s okDraw).turns = [.accessor 1 okDraw] ∧ (∃ t, ({ s okDraw with turns := [] } : State).focus 1 = some t ∧ t.cfg.depth = .sub .two ∧
      t.here.call = some ⟨.write, 0, 5, 4, 0xEF⟩ ∧ Memory.wf t.fb = true) ∧
    okDraw.st = .ok ∧ (errDraw true).st = .err ∧ (errDraw true).landed = true ∧
      (errDraw false).st = .err ∧ (errDraw false).landed = false := ⟨rfl, ⟨_, rfl, rfl, rfl, rfl⟩, by decide⟩

theorem witness_AccessorPerformsDirectWrite :
    let s (dr : Draw) := second bpp16 writingDirect [.accessor 1 dr]
    (s okDraw).turns = [.accessor 1 okDraw] ∧ (∃ t, ({ s okDraw with turns := [] } : State).focus 1 = some t ∧ t.cfg.depth = .wide .sixteen ∧
      t.here.call = some ⟨.write, 2, 3, 1, 0x1234ABCD⟩ ∧ Memory.wf t.px = true) ∧
    okDraw.st = .ok ∧ (errDraw true).st = .err ∧ (errDraw true).landed = true ∧
      (errDraw false).st = .err ∧ (errDraw false).landed = false := ⟨rfl, ⟨_, rfl, rfl, rfl, rfl⟩, by decide⟩

/-- A read, and a write at each kind of depth. -/
theorem witness_OtherAgentCallIsPerformed :
    let s (cfg : Config) (q : Request) := machine cfg (idle []) [.other q]
    (s bpp2 ⟨.read, 0, 4, 4, 0⟩).turns = [.other ⟨.read, 0, 4, 4, 0⟩] ∧
    (s bpp2 ⟨.write, 0xFFFF, 0xFFFF, 4, 0x2F⟩).cfg.depth = .sub .two ∧
    (s bpp16 ⟨.write, 0xFFFF, 0xFFFF, 1, 0xFFFFFFFF⟩).cfg.depth = .wide .sixteen ∧
    Memory.wf (s bpp16 ⟨.write, 0xFFFF, 0xFFFF, 1, 0xFFFFFFFF⟩).fb = true ∧
    Memory.wf (s bpp16 ⟨.write, 0xFFFF, 0xFFFF, 1, 0xFFFFFFFF⟩).px = true := by decide

theorem witness_WriteCallIsIdempotent :
    let s : State := { machine bpp2 writing [] with fb := [(0, 0x01), (65535, 0xFF)] }
    Memory.wf s.fb = true ∧ Memory.wf s.px = true := by decide

/-- Reset in each phase. -/
theorem witness_ResetReturnsInstanceToIdle :
    let s (b : Block) := second bpp2 b [.reset 1]
    (s reading).turns = [.reset 1] ∧
    (∃ t, ({ s reading with turns := [] } : State).focus 1 = some t ∧ t.here.phase = .rdWait) ∧
    (∃ t, ({ s writing with turns := [] } : State).focus 1 = some t ∧ t.here.phase = .wrWait) ∧
    ∃ t, ({ s (idle [0]) with turns := [] } : State).focus 1 = some t ∧ t.here.phase = .idle :=
  ⟨rfl, ⟨_, rfl, rfl⟩, ⟨_, rfl, rfl⟩, ⟨_, rfl, rfl⟩⟩

theorem witness_CallerTakesOldestResponse :
    let s := second bpp2 { idle [] with responses := [0x0000C018#32, 0x00000002#32] } [.take 1]
    s.turns = [.take 1] ∧ ∃ t, ({ s with turns := [] } : State).focus 1 = some t ∧
      t.here.responses = [0x0000C018#32, 0x00000002#32] := ⟨rfl, _, rfl, rfl⟩

/-- An abandoned write that lands, and the last of two that does not. -/
theorem witness_AbandonedCallLandsOrNot :
    let s (k : Nat) (landed : Bool) : State :=
      { machine bpp2 (idle []) [.late k landed] with late := [⟨.write, 0, 5, 4, 0xEF⟩, ⟨.read, 0, 5, 4, 0⟩] }
    (s 0 true).late[0]? = some ⟨.write, 0, 5, 4, 0xEF⟩ ∧ (s 1 false).late[1]? = some ⟨.read, 0, 5, 4, 0⟩ := by decide

/-- Two instances at a masked depth; and the last pixel of a direct depth at its greatest value. -/
theorem witness_PowerUpIsWellFormed :
    (State.powerUp bpp2 .abort 1 [(0, 0x01), (16383, 0xFF)] []).frameWf = true ∧
    Memory.wf [((0 : Nat), (0x01 : Byte)), (16383, 0xFF)] = true ∧
    (State.powerUp bpp16 .writeAny 0 [] [(4294967295, 0x0000FFFF)]).frameWf = true ∧
    Memory.wf [((4294967295 : Nat), (0x0000FFFF : Color))] = true := by decide

/-- A well-formed state in the middle of a masked SETPIXEL, and its step. -/
theorem witness_StepKeepsWellFormed :
    (machine bpp2 writing [.accessor 0 okDraw]).wf = true ∧
    ∃ s', step (machine bpp2 writing [.accessor 0 okDraw]) = .next s' := ⟨by decide, _, rfl⟩

theorem witness_WellFormedStateNeverStops :
    (machine bpp2 (readAnswered ⟨.ok, 0, 0xFF⟩) [.sequencer 0]).wf = true ∧
    (machine bpp16 writingDirect [.accessor 0 okDraw]).wf = true ∧
    ({ machine bpp2 { writing with readErr := some 0x0016 } [] with policy := .writeAny } : State).wf = true := by
  decide

theorem witness_ConfigurationNeverChanges :
    ∃ s', step (machine bpp2 writing [.reset 0]) = .next s' := ⟨_, rfl⟩

/-- A step that performs a write, and one that performs none. -/
theorem witness_FramebufferChangesOnlyAtWrittenLocation :
    (∃ s', step (machine bpp2 writing [.accessor 0 okDraw]) = .next s') ∧
    (machine bpp2 writing [.accessor 0 okDraw]).nextWrite = some ⟨.write, 0, 5, 4, 0xEF⟩ ∧
    (machine bpp2 writing [.accessor 0 (errDraw false)]).nextWrite = none := ⟨⟨_, rfl⟩, by decide, by decide⟩

/-- For the write half, a turn of instance 0 beside instance 1; for the read half, two machines that differ in what
instance 1 holds and in how many instances there are. -/
theorem witness_InstancesShareOnlyTheFramebuffer :
    let s : State := { machine bpp2 writing [.accessor 0 okDraw] with after := [reading] }
    let u : State := { machine bpp2 writing [.accessor 0 okDraw] with after := [idle [0], writing] }
    (∃ s', step s = .next s') ∧ (Turn.accessor 0 okDraw).actor ≠ some 1 ∧
    (Turn.other ⟨.write, 0, 5, 4, 0xEF⟩).actor ≠ some 0 ∧ s.turns = [.accessor 0 okDraw] ∧ s.sharedEq u ∧
    s.blocks[0]? = u.blocks[0]? ∧ s.blocks[1]? ≠ u.blocks[1]? :=
  ⟨⟨_, rfl⟩, by decide, by decide, rfl, ⟨rfl, rfl, rfl, rfl, rfl, rfl⟩, rfl, by decide⟩

/-- Each of the three calls: the read, the masked write, the direct write. -/
theorem witness_CallsComeInOrder :
    let s1 := machine bpp2 (idle [0x000000020000000500000000#96]) [.sequencer 0]
    let s2 := machine bpp2 (readAnswered ⟨.ok, 0, 0xFF⟩) [.sequencer 0]
    let s3 := machine bpp16 (idle [0x1234ABCD0002000300000000#96]) [.sequencer 0]
    (s1.wf = true ∧ s2.wf = true ∧ s3.wf = true) ∧
    (∃ t b, step s1 = .next t ∧ t.blocks[0]? = some b ∧ b.call = some ⟨.read, 0, 5, 4, 0⟩) ∧
    (∃ t b, step s2 = .next t ∧ t.blocks[0]? = some b ∧ b.call = some ⟨.write, 0, 5, 4, 0xEF⟩) ∧
    (∃ t b, step s3 = .next t ∧ t.blocks[0]? = some b ∧ b.call = some ⟨.write, 2, 3, 1, 0x1234ABCD⟩) := by
  exact ⟨by decide, ⟨_, _, rfl, rfl, rfl⟩, ⟨_, _, rfl, rfl, rfl⟩, ⟨_, _, rfl, rfl, rfl⟩⟩

/-- A direct SETPIXEL is accepted; the other order is another configuration. -/
theorem witness_OrderHasNoEffectOnDirectPath :
    let s := machine bpp16 (idle [0x1234ABCD0002000300000000#96]) [.sequencer 0]
    s.cfg.depth = .wide .sixteen ∧ s.cfg.order ≠ .lsbFirst ∧ ∃ s', step s = .next s' := ⟨rfl, by decide, _, rfl⟩

/-- A command accepted by instance 0, and instance 1 in its midst. -/
theorem witness_EveryCommandGetsOneResponse :
    let s : State := { machine bpp2 (idle [0x000000000000000500000001#96]) [.sequencer 0] with after := [reading] }
    s.blocks[1]? = some reading ∧ Turn.sequencer 0 ≠ .take 0 ∧ Turn.sequencer 0 ≠ .reset 0 ∧
    ∃ s' b', step s = .next s' ∧ s'.blocks[0]? = some b' ∧ s'.blocks[1]? = some reading ∧
      b'.responses = [0x00003010#32] := ⟨rfl, by decide, by decide, _, _, rfl, rfl, rfl, rfl⟩

/-- The five turns of a masked SETPIXEL that no other agent comes between. -/
def maskedTurns : List Turn :=
  [.sequencer 1, .accessor 1 okDraw, .sequencer 1, .accessor 1 okDraw, .sequencer 1]

theorem witness_MaskedSetpixelTransaction :
    let s := second bpp2 (idle [encode (.setpixel 0 5 2)]) maskedTurns
    s.turns = maskedTurns ∧ okDraw.st = .ok ∧ ∃ t, ({ s with turns := [] } : State).focus 1 = some t ∧
      t.cfg.depth = .sub .two ∧ t.here.phase = .idle ∧ t.here.commands = [encode (.setpixel 0 5 2)] :=
  ⟨rfl, rfl, _, rfl, rfl, rfl, rfl⟩

/-- The three turns of a direct SETPIXEL. -/
def directTurns : List Turn := [.sequencer 1, .accessor 1 okDraw, .sequencer 1]

theorem witness_DirectSetpixelTransaction :
    let s := second bpp16 (idle [encode (.setpixel 2 3 0x1234ABCD)]) directTurns
    s.turns = directTurns ∧ okDraw.st = .ok ∧ ∃ t, ({ s with turns := [] } : State).focus 1 = some t ∧
      t.cfg.depth = .wide .sixteen ∧ t.here.phase = .idle ∧
      t.here.commands = [encode (.setpixel 2 3 0x1234ABCD)] := ⟨rfl, rfl, _, rfl, rfl, rfl, rfl⟩

theorem witness_MaskedSetpixelSetsOnePixel :
    let s : State := { second bpp2 (idle [encode (.setpixel 0 5 2)]) maskedTurns with fb := [(1, 0xFF)] }
    (s.turns = maskedTurns ∧ okDraw.st = .ok ∧ ∃ t, ({ s with turns := [] } : State).focus 1 = some t ∧
      Memory.wf t.fb = true ∧ t.cfg.depth = .sub .two ∧ t.here.phase = .idle ∧
      t.here.commands = [encode (.setpixel 0 5 2)]) ∧ ∃ t, run 5 s = .next t :=
  ⟨⟨rfl, rfl, _, rfl, rfl, rfl, rfl, rfl⟩, _, rfl⟩

theorem witness_DirectSetpixelIsIdempotent :
    let ws := [encode (.setpixel 0 1 0x1234ABCD), encode (.setpixel 0 1 0x1234ABCD)]
    let s := second bpp16 (idle ws) (directTurns ++ directTurns)
    s.turns = directTurns ++ directTurns ∧ okDraw.st = .ok ∧
    ∃ t, ({ s with turns := [] } : State).focus 1 = some t ∧ Memory.wf t.px = true ∧
      t.cfg.depth = .wide .sixteen ∧ t.here.phase = .idle ∧ t.here.commands = ws :=
  ⟨rfl, rfl, _, rfl, rfl, rfl, rfl, rfl⟩

/-- Another agent writes the byte through another of its columns. -/
theorem witness_OverlappingWriteIsLost :
    let q : Request := ⟨.write, 0, 4, 4, 0x2F⟩
    let ts : List Turn := [.sequencer 1, .accessor 1 okDraw, .other q, .sequencer 1, .accessor 1 okDraw, .sequencer 1]
    let s : State := { second bpp2 (idle [encode (.setpixel 0 5 2)]) ts with fb := [(1, 0xFF)] }
    s.turns = ts ∧ okDraw.st = .ok ∧ q.kind = .write ∧ fbAddress .two q.row q.col = fbAddress .two 0 5 ∧
    ∃ t, ({ s with turns := [] } : State).focus 1 = some t ∧ Memory.wf t.fb = true ∧ t.cfg.depth = .sub .two ∧
      t.here.phase = .idle ∧ t.here.commands = [encode (.setpixel 0 5 2)] :=
  ⟨rfl, rfl, rfl, by decide, _, rfl, rfl, rfl, rfl, rfl⟩

/-- Program P5: instance 0 writes last after reading first, and instance 1 writes last after reading last. -/
theorem witness_TwoInstancesLoseAnUpdate :
    let a := idle [encode (.setpixel 0 0 1)]
    let b := idle [encode (.setpixel 0 1 1)]
    let reads : List Turn := [.sequencer 0, .accessor 0 okDraw, .sequencer 1, .accessor 1 okDraw]
    let writes (m n : Nat) : List Turn :=
      [.sequencer m, .accessor m okDraw, .sequencer m, .sequencer n, .accessor n okDraw, .sequencer n]
    let s (m n : Nat) : State := { machine ⟨.sub .one, .msbFirst⟩ a (reads ++ writes m n) with after := [b] }
    ((s 1 0).turns = reads ++ writes 1 0 ∧ (s 0 1).turns = reads ++ writes 0 1) ∧
    ((s 1 0).blocks[0]? = some a ∧ (s 1 0).blocks[1]? = some b ∧ a.phase = .idle ∧ b.phase = .idle) ∧
    (Memory.wf (s 1 0).fb = true ∧ (s 1 0).cfg.depth = .sub .one ∧ okDraw.st = .ok) ∧
    a.commands = [encode (.setpixel 0 0 1)] ∧ b.commands = [encode (.setpixel 0 1 1)] ∧
    byteIndex .one 1 = byteIndex .one 0 ∧ (1 : Nat) ≠ 0 := by decide

/-- Instance 0 holds a copy of byte 1 while another agent writes byte 0. -/
theorem witness_WindowCopiesStayFresh :
    let s : State := { machine bpp2 writing [.other ⟨.write, 0, 3, 4, 0x2F⟩] with fb := [(1, 0xFF)] }
    s.wf = true ∧ s.copiesFresh = true ∧ s.NoOverlapInFlight ∧ ∃ s', step s = .next s' := by
  refine ⟨by decide, by decide, ?_, _, rfl⟩
  intro t ts q n b c ht hq hb _ hc
  cases ht
  cases hq
  cases n with
  | zero =>
    cases hb
    cases hc
    decide
  | succ n => simp [State.blocks, machine, State.powerUp] at hb

theorem witness_FreshWriteMergesCurrentByte :
    let s : State := { machine bpp2 writing [.accessor 0 okDraw] with fb := [(1, 0xFF)] }
    (s.wf = true ∧ s.copiesFresh = true ∧ s.turns = [.accessor 0 okDraw] ∧ okDraw.st = .ok ∧
      s.blocks[0]? = some writing ∧ writing.phase = .wrWait ∧ writing.call = some ⟨.write, 0, 5, 4, 0xEF⟩ ∧
      writing.readErr = none ∧ s.cfg.depth = .sub .two) ∧ ∃ s', step s = .next s' := ⟨by decide, _, rfl⟩

/-- A masked SETPIXEL whose read is not yet performed, and one whose write's response waits. -/
theorem witness_AnsweredCommandCompletes :
    let ts : List Turn := [.accessor 0 okDraw, .take 0, .sequencer 0, .sequencer 0, .accessor 0 okDraw, .sequencer 0]
    ((machine bpp2 reading ts).wf = true ∧ (machine bpp2 reading ts).blocks[0]? = some reading ∧
      reading.phase ≠ .idle ∧ servedBy 0 reading.remaining ts = true ∧ Turn.reset 0 ∉ ts) ∧
    (machine bpp2 (writeAnswered ⟨.ok, 0, 0⟩) [.sequencer 0]).wf = true ∧
    (writeAnswered ⟨.ok, 0, 0⟩).phase ≠ .idle ∧
    servedBy 0 (writeAnswered ⟨.ok, 0, 0⟩).remaining [.sequencer 0] = true := by decide

end Sys2Proof.Tests
end

/-! PROOFS. R7: the packing order is read by the calculator alone, and on the direct path nothing calls the calculator,
so the machine with another order takes the same turns to the same ends. -/

namespace Sys2Proof.Machine

/-- The same machine with the packing order `o` in its configuration (R7). -/
def State.withOrder (s : State) (o : PackingOrder) : State := { s with cfg := { s.cfg with order := o } }

section
variable (s : State) (o : PackingOrder)

@[simp] theorem State.withOrder_depth : (s.withOrder o).cfg.depth = s.cfg.depth := rfl
@[simp] theorem State.withOrder_here : (s.withOrder o).here = s.here := rfl
@[simp] theorem State.withOrder_turns : (s.withOrder o).turns = s.turns := rfl
@[simp] theorem State.withOrder_late : (s.withOrder o).late = s.late := rfl

theorem State.whenIdle_withOrder (t : State) :
    (s.withOrder o).whenIdle (t.withOrder o) = (s.whenIdle t).withOrder o := by
  by_cases h : s.here.phase = .idle
  · rw [s.whenIdle_idle t h, (s.withOrder o).whenIdle_idle _ h]
  · rw [s.whenIdle_busy t h, (s.withOrder o).whenIdle_busy _ h]

theorem State.store_withOrder (q : Request) : (s.withOrder o).store q = (s.store q).withOrder o := by
  cases h : s.cfg.depth <;> simp only [State.store, State.withOrder_depth, h] <;> rfl

theorem State.storeIf_withOrder (landed : Bool) (q : Request) :
    (s.withOrder o).storeIf landed q = (s.storeIf landed q).withOrder o := by
  cases landed with
  | false => rfl
  | true => exact s.store_withOrder o q

theorem State.perform_withOrder (q : Request) : (s.withOrder o).perform q = (s.perform q).withOrder o := by
  cases h : q.kind with
  | read => simp only [State.perform, h]
  | write =>
    simp only [State.perform, h]
    exact s.store_withOrder o q

theorem State.answerWrite_withOrder (q : Request) (dr : Draw) :
    (s.withOrder o).answerWrite q dr = (s.answerWrite q dr).withOrder o := by
  cases h : dr.st <;>
    simp only [State.answerWrite, h, State.store_withOrder, State.storeIf_withOrder] <;> rfl

theorem State.lateTurn_withOrder (k : Nat) (landed : Bool) :
    (s.withOrder o).lateTurn k landed = (s.lateTurn k landed).withOrder o := by
  cases h : s.late[k]? with
  | none => simp only [State.lateTurn, State.withOrder_late, h]
  | some q =>
    simp only [State.lateTurn, State.withOrder_late, h]
    cases landed with
    | false => rfl
    | true => exact State.perform_withOrder { s with late := s.late.eraseIdx k } o q

theorem State.focus_withOrder (n : Nat) : (s.withOrder o).focus n = (s.focus n).map (·.withOrder o) := by
  have hb : (s.withOrder o).blocks = s.blocks := rfl
  cases h : s.blocks.drop n <;> simp only [State.focus, hb, h] <;> rfl

end

/-- On the direct path, what `f` does with one packing order it does with every other. -/
def OrderBlind (f : State → Host.Outcome State Fault Refusal) : Prop :=
  ∀ (s s' : State) (d : WideDepth) (o : PackingOrder), s.cfg.depth = .wide d → f s = .next s' →
    f (s.withOrder o) = .next (s'.withOrder o)

/-- An operation without outcome that commutes with the choice of the order is blind to it. -/
theorem OrderBlind.next {f : State → State} (h : ∀ s o, f (s.withOrder o) = (f s).withOrder o) :
    OrderBlind fun s => .next (f s) := by
  intro s s' d o _ hs
  cases hs
  exact congrArg Host.Outcome.next (h s o)

/-- R54, R78: at a direct depth CALC and MERGE are turned away and SETPIXEL writes the raw color, so no command asks the
calculator. -/
theorem exec_orderBlind (i : Instr) : OrderBlind (exec i) := by
  intro s s' d o hd hs
  cases i with
  | setpixel row col color =>
    simp only [exec, execSetpixel, State.withOrder_depth, hd] at hs ⊢
    cases hs
    exact congrArg _ (s.whenIdle_withOrder o ((s.latch row col color).issue (writePixelCall row col color) .wrWait))
  | calcCol col =>
    simp only [exec, execCalc, State.withOrder_depth, hd] at hs ⊢
    cases hs
    exact congrArg _ (s.whenIdle_withOrder o (s.respond illegal))
  | merge col color exist =>
    simp only [exec, execMerge, State.withOrder_depth, hd] at hs ⊢
    cases hs
    exact congrArg _ (s.whenIdle_withOrder o (s.respond illegal))

/-- Decoding reads the depth alone (R53, R54). -/
theorem acceptTurn_orderBlind : OrderBlind acceptTurn := by
  intro s s' d o hd hs
  cases hc : s.here.commands with
  | nil =>
    simp only [acceptTurn, State.withOrder_here, hc] at hs ⊢
    cases hs
    rfl
  | cons w ws =>
    cases hw : decode s.cfg.depth w with
    | error c =>
      simp only [acceptTurn, State.withOrder_here, State.withOrder_depth, hc, hw] at hs ⊢
      cases hs
      rfl
    | ok i =>
      simp only [acceptTurn, State.withOrder_here, State.withOrder_depth, hc, hw] at hs ⊢
      exact exec_orderBlind i (s.setCommands ws) s' d o hd hs

/-- R84: at a direct depth no read's response is received, and so no merge is made. -/
theorem onReadAnswer_orderBlind (a : Answer) : OrderBlind (onReadAnswer a) := by
  intro s s' d o hd hs
  obtain ⟨d', hd', -⟩ := onReadAnswer_cases hs
  rw [hd] at hd'
  cases hd'

theorem sequencerTurn_orderBlind : OrderBlind sequencerTurn := by
  intro s s' d o hd hs
  cases hp : s.here.phase with
  | idle =>
    simp only [sequencerTurn, State.withOrder_here, hp] at hs ⊢
    exact acceptTurn_orderBlind s s' d o hd hs
  | rdWait =>
    cases ha : s.here.answer with
    | none =>
      simp only [sequencerTurn, State.withOrder_here, hp, ha] at hs ⊢
      cases hs
      rfl
    | some a =>
      simp only [sequencerTurn, State.withOrder_here, hp, ha] at hs ⊢
      exact onReadAnswer_orderBlind a s s' d o hd hs
  | wrWait =>
    cases ha : s.here.answer with
    | none =>
      simp only [sequencerTurn, State.withOrder_here, hp, ha] at hs ⊢
      cases hs
      rfl
    | some a =>
      simp only [sequencerTurn, State.withOrder_here, hp, ha] at hs ⊢
      cases hs
      rfl

/-- R35, R84: at a direct depth the RowAccessor answers writes alone, and it stores them by the depth. -/
theorem accessorTurn_orderBlind (dr : Draw) : OrderBlind fun s => s.accessorTurn dr := by
  intro s s' d o hd hs
  rcases accessorTurn_cases hs with ⟨hc, rfl⟩ | ⟨q, hc, ⟨hk, rfl⟩ | ⟨d', -, hd', -⟩⟩
  · simp only [State.accessorTurn, State.withOrder_here, hc]
  · simp only [State.accessorTurn, State.withOrder_here, hc, hk, State.answerWrite_withOrder]
  · rw [hd] at hd'
    cases hd'

theorem OrderBlind.inFocus {f : State → Host.Outcome State Fault Refusal} (hf : OrderBlind f) (n : Nat) :
    OrderBlind fun s => s.inFocus n f := by
  intro s s' d o hd hs
  cases h : s.focus n with
  | none =>
    simp only [State.inFocus, State.focus_withOrder, h, Option.map_none] at hs ⊢
    cases hs
    rfl
  | some t =>
    simp only [State.inFocus, State.focus_withOrder, h, Option.map_some] at hs ⊢
    have ht : t.cfg.depth = .wide d := by rw [(State.focus_shared h).1, hd]
    exact hf t s' d o ht hs

theorem runTurn_orderBlind (t : Turn) : OrderBlind (runTurn t) := by
  cases t with
  | sequencer n => exact sequencerTurn_orderBlind.inFocus n
  | accessor n dr => exact (accessorTurn_orderBlind dr).inFocus n
  | other q => exact .next fun s o => s.perform_withOrder o q
  | late k landed => exact .next fun s o => s.lateTurn_withOrder o k landed
  | take n => exact (OrderBlind.next fun _ _ => rfl).inFocus n
  | reset n => exact (OrderBlind.next fun _ _ => rfl).inFocus n

theorem step_orderBlind : OrderBlind step := by
  intro s s' d o hd hs
  cases ht : s.turns with
  | nil =>
    simp only [step, State.withOrder_turns, ht] at hs ⊢
    cases hs
    rfl
  | cons t ts =>
    simp only [step, State.withOrder_turns, ht] at hs ⊢
    exact runTurn_orderBlind t { s with turns := ts } s' d o hd hs

/-- Settles O45: no turn of a machine on the direct path reads the packing order. -/
theorem orderHasNoEffectOnDirectPath : Obligations.OrderHasNoEffectOnDirectPath :=
  step_orderBlind

end Sys2Proof.Machine

/-! PROOFS. What one step does to each part of the state, said once: the write it performs, its move in each instance,
and where its abandoned calls come from. The statements on every step (R14, R17, R23, R47) follow from it. -/

namespace Sys2Proof.Machine

/-! ### The commands by their outcome -/

theorem exec_busy {s : State} (hp : s.here.phase ≠ .idle) (i : Instr) : exec i s = .next s := by
  cases i <;> cases hd : s.cfg.depth <;>
    simp only [exec, execSetpixel, execCalc, execMerge, hd, State.whenIdle_busy s _ hp]

/-- What a command accepted in `IDLE` can do: drive one response (R54, R72, R77), or latch its operands and issue its
first call (R79, R82). -/
theorem exec_idle_cases {i : Instr} {s t : State} (hp : s.here.phase = .idle) (h : exec i s = .next t) :
    (∃ r : Response, t = s.respond r) ∨
    ∃ row col color, i = .setpixel row col color ∧
      ((∃ d, s.cfg.depth = .sub d ∧ t = (s.latch row col color).issue (readCall d row col) .rdWait) ∨
       (∃ d, s.cfg.depth = .wide d ∧
          t = (s.latch row col color).issue (writePixelCall row col color) .wrWait)) := by
  cases i with
  | setpixel row col color =>
    refine .inr ⟨row, col, color, rfl, ?_⟩
    cases hd : s.cfg.depth <;>
      simp only [exec, execSetpixel, hd, State.whenIdle_idle s _ hp, Host.Outcome.next.injEq] at h
    · exact .inl ⟨_, rfl, h.symm⟩
    · exact .inr ⟨_, rfl, h.symm⟩
  | calcCol col =>
    cases hd : s.cfg.depth <;>
      simp only [exec, execCalc, hd, State.whenIdle_idle s _ hp, Host.Outcome.next.injEq] at h <;>
      exact .inl ⟨_, h.symm⟩
  | merge col color exist =>
    cases hd : s.cfg.depth <;>
      simp only [exec, execMerge, hd, State.whenIdle_idle s _ hp, Host.Outcome.next.injEq] at h <;>
      exact .inl ⟨_, h.symm⟩

/-! ### The moves of one instance -/

/-- What its own sequencer's turn makes of an instance (R17). -/
inductive Block.SequencerMove (cfg : Config) (p : ReadFailPolicy) (b : Block) : Block → Prop
  /-- The instance is left as it is: no word is presented, or no answer has come (R105, R107). -/
  | wait : SequencerMove cfg p b b
  /-- A word is accepted and answered at once (R72, R77, R89). -/
  | answered {w : CmdWord} {ws : List CmdWord} (r : Response) (hp : b.phase = .idle) (hw : b.commands = w :: ws) :
      SequencerMove cfg p b
        { b with commands := ws, responses := b.responses ++ [r.word], phase := .idle, readErr := none }
  /-- A SETPIXEL is accepted on the masked path and its read call issued (R79). -/
  | readIssued {w : CmdWord} {ws : List CmdWord} {d : SubDepth} (row col : Coord) (color : Color)
      (hp : b.phase = .idle) (hw : b.commands = w :: ws) (hd : cfg.depth = .sub d) :
      SequencerMove cfg p b
        { b with
          commands := ws, lRow := row, lCol := col, lColor := color, readErr := none
          call := some (Machine.readCall d row col), answer := none, phase := .rdWait }
  /-- A SETPIXEL is accepted on the direct path and its write call issued (R82). -/
  | pixelIssued {w : CmdWord} {ws : List CmdWord} {d : WideDepth} (row col : Coord) (color : Color)
      (hp : b.phase = .idle) (hw : b.commands = w :: ws) (hd : cfg.depth = .wide d) :
      SequencerMove cfg p b
        { b with
          commands := ws, lRow := row, lCol := col, lColor := color, readErr := none
          call := some (writePixelCall row col color), answer := none, phase := .wrWait }
  /-- The read's answer is received, its byte merged and the write call issued; the error `e` of a failed read is kept
  under `WRITE_ANY` (R79, R80). -/
  | mergedIssued {a : Answer} {d : SubDepth} {e : Option ErrCode} (hp : b.phase = .rdWait) (ha : b.answer = some a)
      (hd : cfg.depth = .sub d) (he : a.st = .ok ∧ e = none ∨ a.st = .err ∧ p = .writeAny ∧ e = some a.err) :
      SequencerMove cfg p b
        { b with
          lByte := a.rdata, readErr := e
          call := some (writeByteCall d b.lRow b.lCol (mergeAt d cfg.order a.rdata b.lColor b.lCol))
          answer := none, phase := .wrWait }
  /-- An answer is received and the command's response driven (R79, R80, R82). -/
  | reported {a : Answer} (r : Response) (hp : b.phase ≠ .idle) (ha : b.answer = some a) :
      SequencerMove cfg p b
        { b with
          call := none, answer := none, responses := b.responses ++ [r.word], phase := .idle, readErr := none }

/-- What the RowAccessor's turn with the draw `dr` makes of the instance it serves (R33, R36, R45). -/
inductive Block.AccessorMove (cfg : Config) (fb : List Host.Cell) (dr : Draw) (b : Block) : Block → Prop
  /-- No call is outstanding. -/
  | idle (hc : b.call = none) : AccessorMove cfg fb dr b b
  /-- A read call is answered with the containing byte (R33). -/
  | readAnswered {q : Request} {d : SubDepth} (hc : b.call = some q) (hk : q.kind = .read) (hd : cfg.depth = .sub d)
      (hst : dr.st = .ok) :
      AccessorMove cfg fb dr b
        { b with call := none, answer := some ⟨.ok, dr.err, Memory.read fb (fbAddress d q.row q.col)⟩ }
  /-- A read call fails, or a write call is answered: the answer is the draw's (R36, R37). -/
  | answered {q : Request} (hc : b.call = some q) (hk : q.kind = .write ∨ dr.st = .err) :
      AccessorMove cfg fb dr b { b with call := none, answer := some ⟨dr.st, dr.err, dr.rdata⟩ }

/-- What a turn makes of instance `n`. -/
inductive Block.Move (cfg : Config) (p : ReadFailPolicy) (fb : List Host.Cell) (n : Nat) (b : Block) :
    Turn → Block → Prop
  /-- The turn is not of this instance (R97). -/
  | unmoved {t : Turn} (ht : t.actor ≠ some n) : Move cfg p fb n b t b
  /-- Its sequencer moves (R17). -/
  | sequencer {b' : Block} (h : b.SequencerMove cfg p b') : Move cfg p fb n b (.sequencer n) b'
  /-- The RowAccessor serves it (R45). -/
  | accessor {b' : Block} {dr : Draw} (h : b.AccessorMove cfg fb dr b') : Move cfg p fb n b (.accessor n dr) b'
  /-- Its caller takes the oldest response (R55). -/
  | take : Move cfg p fb n b (.take n) { b with responses := b.responses.tail }
  /-- It is reset, and its caller keeps the words it holds (R99). -/
  | reset : Move cfg p fb n b (.reset n) { Block.reset with commands := b.commands }

/-- The sequencer's turn makes one of its moves in the instance in focus, and changes nothing else. -/
theorem sequencerTurn_move {s s' : State} (h : sequencerTurn s = .next s') :
    ∃ b', s.here.SequencerMove s.cfg s.policy b' ∧ s' = s.mapHere fun _ => b' := by
  rcases sequencerTurn_cases h with rfl | ⟨w, ws, i, hp, hw, -, hx⟩ | ⟨w, ws, c, hp, hw, -, rfl⟩ |
    ⟨a, hp, ha, hx⟩ | ⟨a, hp, ha, rfl⟩
  · exact ⟨_, .wait, rfl⟩
  · rcases exec_idle_cases (s := s.setCommands ws) hp hx with
      ⟨r, rfl⟩ | ⟨row, col, color, -, ⟨d, hd, rfl⟩ | ⟨d, hd, rfl⟩⟩
    · exact ⟨_, .answered r hp hw, rfl⟩
    · exact ⟨_, .readIssued row col color hp hw hd, rfl⟩
    · exact ⟨_, .pixelIssued row col color hp hw hd, rfl⟩
  · exact ⟨_, .answered illegal hp hw, rfl⟩
  · have busy : s.here.phase ≠ .idle := by simp [hp]
    obtain ⟨d, hd, ⟨hst, rfl⟩ | ⟨-, -, rfl⟩ | ⟨hst, hpol, rfl⟩⟩ := onReadAnswer_cases hx
    · exact ⟨_, .mergedIssued hp ha hd (.inl ⟨hst, rfl⟩), rfl⟩
    · exact ⟨_, .reported (accErr a.err) busy ha, rfl⟩
    · exact ⟨_, .mergedIssued hp ha hd (.inr ⟨hst, hpol, rfl⟩), rfl⟩
  · have busy : s.here.phase ≠ .idle := by simp [hp]
    exact ⟨_, .reported (finalResponse s.here.readErr a) busy ha, rfl⟩

/-! ### The write of a turn -/

/-- The state after the write of a turn, if it performs one. -/
def State.withWrite (s : State) (w : Option Request) : State := w.elim s s.store

section
variable (s : State)

@[simp] theorem State.withWrite_none : s.withWrite none = s := rfl
@[simp] theorem State.withWrite_some (q : Request) : s.withWrite (some q) = s.store q := rfl

@[simp] theorem State.withWrite_cfg (w : Option Request) : (s.withWrite w).cfg = s.cfg := by cases w <;> simp
@[simp] theorem State.withWrite_policy (w : Option Request) : (s.withWrite w).policy = s.policy := by
  cases w <;> simp
@[simp] theorem State.withWrite_before (w : Option Request) : (s.withWrite w).before = s.before := by
  cases w <;> simp
@[simp] theorem State.withWrite_here (w : Option Request) : (s.withWrite w).here = s.here := by cases w <;> simp
@[simp] theorem State.withWrite_after (w : Option Request) : (s.withWrite w).after = s.after := by cases w <;> simp
@[simp] theorem State.withWrite_late (w : Option Request) : (s.withWrite w).late = s.late := by cases w <;> simp
@[simp] theorem State.withWrite_blocks (w : Option Request) : (s.withWrite w).blocks = s.blocks := by
  cases w <;> simp

/-- A write call changes the framebuffer as a function of the configuration and the framebuffer alone. -/
theorem State.withWrite_congr {s u : State} (hc : u.cfg = s.cfg) (hf : u.fb = s.fb) (hx : u.px = s.px)
    (w : Option Request) : (u.withWrite w).fb = (s.withWrite w).fb ∧ (u.withWrite w).px = (s.withWrite w).px := by
  cases w with
  | none => exact ⟨hf, hx⟩
  | some q => cases hd : s.cfg.depth <;> simp [State.store, hc, hd, hf, hx]

/-- Performing a call is performing its write, if it is a write call. -/
theorem State.perform_eq_withWrite (q : Request) :
    s.perform q = s.withWrite (if q.kind = .write then some q else none) := by
  cases hk : q.kind <;> simp [State.perform, hk]

/-- A write call is performed if it succeeds or lands, and answered with the draw (R34, R35, R37). -/
theorem State.answerWrite_eq_reply (q : Request) (dr : Draw) :
    s.answerWrite q dr =
      (s.withWrite (if dr.st = .ok ∨ dr.landed = true then some q else none)).reply ⟨dr.st, dr.err, dr.rdata⟩ := by
  cases hst : dr.st <;> cases hl : dr.landed <;> simp [State.answerWrite, State.storeIf, hst, hl]

theorem State.writeOfTurn_accessor {n : Nat} {b : Block} (hb : s.blocks[n]? = some b) (dr : Draw) :
    s.writeOfTurn (.accessor n dr) =
      b.call.bind fun q => if q.kind = .write ∧ (dr.st = .ok ∨ dr.landed = true) then some q else none := by
  cases hc : b.call <;> simp [State.writeOfTurn, hb, hc]

theorem State.writeOfTurn_late (k : Nat) (landed : Bool) :
    s.writeOfTurn (.late k landed) =
      s.late[k]?.bind fun q => if q.kind = .write ∧ landed = true then some q else none := by
  cases h : s.late[k]? <;> simp [State.writeOfTurn, h]

end

/-- A turn of an instance that does not exist performs no write. -/
theorem State.writeOfTurn_absent {s : State} {t : Turn} {n : Nat} (ht : t.actor = some n)
    (hn : s.blocks[n]? = none) : s.writeOfTurn t = none := by
  cases t <;> cases ht <;> simp [State.writeOfTurn, hn]

/-- The RowAccessor's turn performs the write of the outstanding call, if it is to be performed, and makes one of its
moves in the instance in focus. -/
theorem accessorTurn_move {s s' : State} {dr : Draw} (h : s.accessorTurn dr = .next s') :
    ∃ b', s.here.AccessorMove s.cfg s.fb dr b' ∧
      s' = (s.withWrite (s.writeOfTurn (.accessor s.before.length dr))).mapHere fun _ => b' := by
  have hb : s.blocks[s.before.length]? = some s.here := State.focus_here s.focus_self
  rw [s.writeOfTurn_accessor hb]
  rcases accessorTurn_cases h with ⟨hc, rfl⟩ | ⟨q, hc, ⟨hk, rfl⟩ | ⟨d, hk, hd, ⟨hst, rfl⟩ | ⟨hst, rfl⟩⟩⟩
  · refine ⟨_, .idle hc, ?_⟩
    rw [hc]
    rfl
  · refine ⟨_, .answered hc (.inl hk), ?_⟩
    simp [hc, hk, State.answerWrite_eq_reply, State.reply, State.mapHere]
  · refine ⟨_, .readAnswered hc hk hd hst, ?_⟩
    simp [hc, hk, State.reply, State.mapHere, State.fbByte]
  · refine ⟨_, .answered hc (.inr hst), ?_⟩
    simp [hc, hk, hst, State.reply, State.mapHere]

/-! ### One step -/

/-- What the turn `t` makes of the whole machine: the framebuffer changes by its write, each instance by its move, and
a call is abandoned only if it was outstanding. -/
structure State.Effect (s : State) (t : Turn) (s' : State) : Prop where
  cfg : s'.cfg = s.cfg
  policy : s'.policy = s.policy
  fb : s'.fb = (s.withWrite (s.writeOfTurn t)).fb
  px : s'.px = (s.withWrite (s.writeOfTurn t)).px
  late : ∀ q ∈ s'.late, q ∈ s.late ∨ ∃ b ∈ s.blocks, b.call = some q
  blocks : ∀ n : Nat, Option.Rel (fun b b' => b.Move s.cfg s.policy s.fb n t b') s.blocks[n]? s'.blocks[n]?

/-- No instance moves in a turn that is of none of them. -/
theorem Block.rel_unmoved {cfg : Config} {p : ReadFailPolicy} {fb : List Host.Cell} {n : Nat} {t : Turn}
    {o : Option Block} (h : ∀ b, o = some b → t.actor ≠ some n) :
    Option.Rel (fun b b' => b.Move cfg p fb n t b') o o := by
  cases o with
  | none => exact .none
  | some b => exact .some (.unmoved (h b rfl))

/-- A turn that changes the framebuffer and the abandoned calls alone. -/
theorem State.Effect.of_write {s : State} {t : Turn} {late : List Request}
    (ht : ∀ n b, s.blocks[n]? = some b → t.actor ≠ some n) (hl : ∀ q ∈ late, q ∈ s.late) (ts : List Turn) :
    s.Effect t (({ s with turns := ts, late := late } : State).withWrite (s.writeOfTurn t)) where
  cfg := by simp
  policy := by simp
  fb := (State.withWrite_congr (s := s) (u := { s with turns := ts, late := late }) rfl rfl rfl _).1
  px := (State.withWrite_congr (s := s) (u := { s with turns := ts, late := late }) rfl rfl rfl _).2
  late q hq := .inl (hl q (by simpa using hq))
  blocks n := by
    rw [State.withWrite_blocks]
    exact Block.rel_unmoved fun b hb => ht n b hb

/-- A turn of an instance: its write, its move in that instance, and the abandoned calls with at most its own call. -/
theorem State.Effect.of_move {s u : State} {t : Turn} {n : Nat} {b' : Block} {late : List Request} {ts : List Turn}
    (hu : ({ s with turns := ts } : State).focus n = some u) (ht : t.actor = some n)
    (hm : u.here.Move u.cfg u.policy u.fb n t b') (hl : ∀ q ∈ late, q ∈ u.late ∨ u.here.call = some q) :
    s.Effect t { (u.withWrite (s.writeOfTurn t)).mapHere fun _ => b' with late := late } := by
  obtain ⟨hcfg, hpol, hfb, hpx, hlate, -⟩ : u.cfg = s.cfg ∧ u.policy = s.policy ∧ u.fb = s.fb ∧ u.px = s.px ∧
      u.late = s.late ∧ u.turns = ts := State.focus_shared hu
  have hblocks : u.blocks = s.blocks := (State.focus_blocks hu).trans rfl
  have hlen : u.before.length = n := State.focus_before_length hu
  have hhere : s.blocks[n]? = some u.here := hblocks ▸ State.focus_here (State.focus_of_length hlen)
  constructor
  · simpa using hcfg
  · simpa using hpol
  · exact (State.withWrite_congr hcfg hfb hpx _).1
  · exact (State.withWrite_congr hcfg hfb hpx _).2
  · intro q hq
    rcases hl q hq with h | h
    · exact .inl (hlate ▸ h)
    · exact .inr ⟨u.here, List.mem_of_getElem? hhere, h⟩
  · intro m
    show Option.Rel _ _ ((u.withWrite (s.writeOfTurn t)).mapHere fun _ => b').blocks[m]?
    rw [State.mapHere_block, State.withWrite_before, State.withWrite_blocks, hlen, hblocks]
    by_cases h : m = n
    · subst h
      rw [if_pos rfl, hhere]
      rw [hcfg, hpol, hfb] at hm
      exact .some hm
    · rw [if_neg h]
      exact Block.rel_unmoved fun _ _ => by rw [ht]; exact fun e => h (Option.some.inj e).symm

/-- Every step has the effect of its turn. -/
theorem step_effect {s s' : State} {t : Turn} {ts : List Turn} (h : s.turns = t :: ts) (hs : step s = .next s') :
    s.Effect t s' := by
  have absent {n : Nat} (ht : t.actor = some n) (hn : s.blocks[n]? = none) :
      s.Effect t { s with turns := ts } := by
    have := State.Effect.of_write (t := t) (late := s.late)
      (fun m b hb e => by rw [ht] at e; cases e; rw [hn] at hb; cases hb) (fun _ hq => hq) ts
    rwa [State.writeOfTurn_absent ht hn] at this
  simp only [step, h] at hs
  cases t with
  | sequencer n =>
    rcases State.inFocus_cases hs with ⟨hn, rfl⟩ | ⟨u, hu, hx⟩
    · exact absent rfl hn
    · obtain ⟨b', hm, rfl⟩ := sequencerTurn_move hx
      exact .of_move hu rfl (.sequencer hm) fun _ hq => .inl hq
  | accessor n dr =>
    rcases State.inFocus_cases hs with ⟨hn, rfl⟩ | ⟨u, hu, hx⟩
    · exact absent rfl hn
    · obtain ⟨b', hm, rfl⟩ := accessorTurn_move hx
      have hw : u.writeOfTurn (.accessor u.before.length dr) = s.writeOfTurn (.accessor n dr) := by
        have hblocks : u.blocks = s.blocks := (State.focus_blocks hu).trans rfl
        simp only [State.writeOfTurn, State.focus_before_length hu, hblocks]
      rw [hw]
      exact .of_move hu rfl (.accessor hm) fun _ hq => .inl (by simpa using hq)
  | other q =>
    cases hs
    rw [State.perform_eq_withWrite]
    exact .of_write (fun _ _ _ e => by cases e) (fun _ hq => hq) ts
  | late k landed =>
    cases hs
    have eff := State.Effect.of_write (s := s) (t := .late k landed) (fun _ _ _ e => by cases e)
      (fun _ hq => List.mem_of_mem_eraseIdx hq) (late := s.late.eraseIdx k) ts
    rw [s.writeOfTurn_late] at eff
    rcases State.lateTurn_cases ({ s with turns := ts } : State) k landed with
      ⟨hk, e⟩ | ⟨q, hk, ⟨rfl, e⟩ | ⟨rfl, e⟩⟩ <;> rw [e]
    · replace hk : s.late[k]? = none := hk
      rw [hk, List.eraseIdx_of_length_le (List.getElem?_eq_none_iff.1 hk)] at eff
      exact eff
    · replace hk : s.late[k]? = some q := hk
      rw [State.perform_eq_withWrite]
      simpa [hk] using eff
    · replace hk : s.late[k]? = some q := hk
      simpa [hk] using eff
  | take n =>
    rcases State.inFocus_cases hs with ⟨hn, rfl⟩ | ⟨u, hu, hx⟩
    · exact absent rfl hn
    · cases hx
      exact .of_move hu rfl .take fun _ hq => .inl hq
  | reset n =>
    rcases State.inFocus_cases hs with ⟨hn, rfl⟩ | ⟨u, hu, hx⟩
    · exact absent rfl hn
    · cases hx
      exact .of_move hu rfl .reset fun q hq => by simpa using hq

end Sys2Proof.Machine

/-! PROOFS. R14, R23, R85, R97: what a command leaves alone, what no step changes, and where the framebuffer may
change. -/

namespace Sys2Proof.Machine

/-! ### The frame of the commands -/

/-- Settles O22: an accepted command drives a response or issues its first call, and neither touches more than
the instance in focus. -/
theorem commandFrame : Obligations.CommandFrame := by
  intro i s t h
  by_cases hp : s.here.phase = .idle
  · rcases exec_idle_cases hp h with ⟨r, rfl⟩ | ⟨row, col, color, rfl, ⟨d, -, rfl⟩ | ⟨d, -, rfl⟩⟩
    · cases i <;> simp [hp]
    · simp
    · simp
  · rw [exec_busy hp] at h
    cases h
    cases i <;> simp

/-! ### The frame of a step -/

/-- A step with no turn left changes nothing, and every other has the effect of its turn. -/
theorem step_effect_cases {s s' : State} (hs : step s = .next s') :
    (s.turns = [] ∧ s' = s) ∨ ∃ t ts, s.turns = t :: ts ∧ s.Effect t s' := by
  rcases step_cases s with ⟨ht, e⟩ | ⟨t, ts, ht, -⟩
  · exact .inl ⟨ht, (Host.Outcome.next.inj (e.symm.trans hs)).symm⟩
  · exact .inr ⟨t, ts, ht, step_effect ht hs⟩

/-- A turn neither makes nor removes an instance. -/
theorem State.Effect.length_blocks {s s' : State} {t : Turn} (h : s.Effect t s') :
    s'.blocks.length = s.blocks.length := by
  have past (n : Nat) : s.blocks[n]? = none ↔ s'.blocks[n]? = none := by
    have hr := h.blocks n
    generalize s.blocks[n]? = o, s'.blocks[n]? = o' at hr ⊢
    cases hr <;> simp
  simp only [List.getElem?_eq_none_iff] at past
  exact le_antisymm ((past _).1 le_rfl) ((past _).2 le_rfl)

/-- The instance that a turn leaves in place of an instance is that instance after its move. -/
theorem State.Effect.move_of_block {s s' : State} {t : Turn} {n : Nat} {b' : Block} (h : s.Effect t s')
    (hb' : s'.blocks[n]? = some b') :
    ∃ b, s.blocks[n]? = some b ∧ b.Move s.cfg s.policy s.fb n t b' := by
  have hr := h.blocks n
  rw [hb'] at hr
  generalize s.blocks[n]? = o at hr
  cases hr with
  | some hm => exact ⟨_, rfl, hm⟩

/-- Settles O41. -/
theorem configurationNeverChanges : Obligations.ConfigurationNeverChanges := by
  intro s s' hs
  rcases step_effect_cases hs with ⟨-, rfl⟩ | ⟨t, ts, -, eff⟩
  · exact ⟨rfl, rfl, rfl⟩
  · exact ⟨eff.cfg, eff.policy, eff.length_blocks⟩

/-- The framebuffer after a step is the one before it with the write of the step. -/
theorem step_framebuffer {s s' : State} (hs : step s = .next s') :
    s'.fb = (s.withWrite s.nextWrite).fb ∧ s'.px = (s.withWrite s.nextWrite).px := by
  rcases step_effect_cases hs with ⟨ht, rfl⟩ | ⟨t, ts, ht, eff⟩
  · simp [State.nextWrite, ht]
  · simpa only [State.nextWrite, ht] using ⟨eff.fb, eff.px⟩

/-- A write call leaves every location but its own as it reads (R34, R35). -/
theorem State.read_store_other (s : State) {q : Request} {a : Nat}
    (h : a ≠ targetAddress s.cfg.depth q.row q.col) :
    Memory.read (s.store q).fb a = Memory.read s.fb a ∧ Memory.read (s.store q).px a = Memory.read s.px a := by
  cases hd : s.cfg.depth <;> simp only [hd, targetAddress] at h <;>
    simp [State.store, hd, Memory.read_write_other _ _ _ _ h]

/-- Settles O42. -/
theorem framebufferChangesOnlyAtWrittenLocation : Obligations.FramebufferChangesOnlyAtWrittenLocation := by
  intro s s' hs
  obtain ⟨hfb, hpx⟩ := step_framebuffer hs
  refine ⟨fun hw => ?_, fun q hw a ha => ?_⟩
  · rw [hfb, hpx, hw]
    exact ⟨rfl, rfl⟩
  · rw [hfb, hpx, hw]
    exact s.read_store_other ha

end Sys2Proof.Machine

/-! PROOFS. R17, R24, R28, R29, R44, R47, R55, R58: the invariant of the machine holds after reset and every step keeps
it; and under the caller's precondition the copies held in windows stay equal to their bytes. -/

namespace Sys2Proof.Machine

/-! ### The response words -/

theorem statusOf_word (r : Response) : statusOf r.word = some r.status := by
  have hbits : r.word.extractLsb' 0 2 = statusCode r.status := by
    refine BitVec.eq_of_getLsbD_eq fun i hi => ?_
    rw [BitVec.getLsbD_extractLsb', Nat.zero_add, Response.word_bit]
    simp [hi]
  cases hst : r.status <;> simp [statusOf, hbits, hst, statusCode]

/-- Every word the block drives is a response: its status is one of R56 and its bits 7 to 5 are zero (R55). -/
theorem readResponse_word_isSome (r : Response) : (readResponse r.word).isSome = true := by
  have hzero : r.word.extractLsb' 5 3 = 0#3 := by
    refine BitVec.eq_of_getLsbD_eq fun i hi => ?_
    rw [BitVec.getLsbD_extractLsb', Response.word_bit]
    simp [hi, show ¬ 5 + i < 2 by omega, show ¬ 5 + i < 5 by omega, show 5 + i < 8 by omega]
  simp [readResponse, statusOf_word, hzero]

/-! ### The instances -/

section
variable {cfg : Config} {p : ReadFailPolicy} {b b' : Block}

/-- A block's words are still responses after it has driven one more. -/
theorem Block.responses_append (h : b.wf cfg p = true) (r : Response) :
    ∀ w ∈ b.responses ++ [r.word], (readResponse w).isSome = true := by
  intro w hw
  rcases List.mem_append.1 hw with hw | hw
  · exact Block.wf_responses h w hw
  · rw [List.mem_singleton.1 hw]
    exact readResponse_word_isSome r

/-- The call outstanding is the one waited for. -/
theorem Block.waitsFor_call {q q' : Request} (h : b.waitsFor q = true) (hc : b.call = some q') : q' = q := by
  rcases Block.waitsFor_iff.1 h with ⟨hq, -⟩ | ⟨hnone, -⟩
  · exact Option.some.inj (hc.symm.trans hq)
  · rw [hc] at hnone
    cases hnone

theorem Block.waitsFor_issued {q : Request} (hc : b.call = some q) (ha : b.answer = none) :
    b.waitsFor q = true :=
  Block.waitsFor_iff.2 (.inl ⟨hc, ha⟩)

theorem Block.waitsFor_answered (b : Block) (a : Answer) (q : Request) :
    ({ b with call := none, answer := some a } : Block).waitsFor q = true :=
  Block.waitsFor_iff.2 (.inr ⟨rfl, a, rfl⟩)

/-- A well-formed block with a call outstanding makes its read call in `RD_WAIT` or its write call in `WR_WAIT`
(R79, R82). -/
theorem Block.wf_call {q : Request} (h : b.wf cfg p = true) (hc : b.call = some q) :
    (b.phase = .rdWait ∧ ∃ d, cfg.depth = .sub d ∧ q = Machine.readCall d b.lRow b.lCol) ∨
      (b.phase = .wrWait ∧ q = b.writeCall cfg) := by
  cases hp : b.phase with
  | idle =>
    obtain ⟨hnone, -⟩ := (Block.wf_idle hp).1 h
    rw [hc] at hnone
    cases hnone
  | rdWait =>
    obtain ⟨-, ⟨d, hd, hw⟩, -⟩ := (Block.wf_rdWait hp).1 h
    exact .inl ⟨rfl, d, hd, Block.waitsFor_call hw hc⟩
  | wrWait =>
    obtain ⟨hw, -⟩ := (Block.wf_wrWait hp).1 h
    exact .inr ⟨rfl, Block.waitsFor_call hw hc⟩

theorem Block.writeCall_kind (cfg : Config) (b : Block) : (b.writeCall cfg).kind = .write := by
  unfold Block.writeCall
  split <;> rfl

/-- The write call of a block is one of its configuration (R58). -/
theorem Block.legalCall_writeCall (cfg : Config) (b : Block) : legalCall cfg.depth (b.writeCall cfg) = true := by
  cases hd : cfg.depth with
  | sub d =>
    have high (v : Byte) : (v.setWidth 32).extractLsb' 8 24 = 0#24 := by
      refine BitVec.eq_of_getLsbD_eq fun i hi => ?_
      rw [BitVec.getLsbD_extractLsb', BitVec.getLsbD_setWidth, BitVec.getLsbD_of_ge v (8 + i) (by omega)]
      simp
    simp [Block.writeCall, legalCall, hd, writeByteCall, high]
  | wide d => simp [Block.writeCall, legalCall, hd, writePixelCall]

/-- Every call outstanding in a well-formed block is one the block may drive (R58, R84). -/
theorem Block.wf_legalCall {q : Request} (h : b.wf cfg p = true) (hc : b.call = some q) :
    legalCall cfg.depth q = true := by
  rcases Block.wf_call h hc with ⟨-, d, hd, rfl⟩ | ⟨-, rfl⟩
  · simp [legalCall, hd, Machine.readCall]
  · exact b.legalCall_writeCall cfg

/-- Answering the outstanding call keeps a block well-formed (R44). -/
theorem Block.wf_answered {q : Request} (h : b.wf cfg p = true) (hc : b.call = some q) (a : Answer) :
    ({ b with call := none, answer := some a } : Block).wf cfg p = true := by
  rcases Block.wf_call h hc with ⟨hp, -⟩ | ⟨hp, -⟩
  · obtain ⟨hre, ⟨d, hd, -⟩, hr⟩ := (Block.wf_rdWait hp).1 h
    exact (Block.wf_rdWait (b := { b with call := none, answer := some a }) hp).2
      ⟨hre, ⟨d, hd, Block.waitsFor_answered b a _⟩, hr⟩
  · obtain ⟨-, hre, hr⟩ := (Block.wf_wrWait hp).1 h
    exact (Block.wf_wrWait (b := { b with call := none, answer := some a }) hp).2
      ⟨Block.waitsFor_answered b a _, hre, hr⟩

theorem Block.SequencerMove.keeps_wf (hm : b.SequencerMove cfg p b') (h : b.wf cfg p = true) :
    b'.wf cfg p = true := by
  have hr := Block.wf_responses h
  cases hm with
  | wait => exact h
  | answered r hp hw =>
    obtain ⟨hc, ha, -, -⟩ := (Block.wf_idle hp).1 h
    exact (Block.wf_idle rfl).2 ⟨hc, ha, rfl, Block.responses_append h r⟩
  | readIssued row col color hp hw hd =>
    exact (Block.wf_rdWait rfl).2 ⟨rfl, ⟨_, hd, Block.waitsFor_issued rfl rfl⟩, hr⟩
  | pixelIssued row col color hp hw hd =>
    refine (Block.wf_wrWait rfl).2 ⟨Block.waitsFor_issued ?_ rfl, .inl rfl, hr⟩
    simp [Block.writeCall, hd]
  | mergedIssued hp ha hd he =>
    refine (Block.wf_wrWait rfl).2 ⟨Block.waitsFor_issued ?_ rfl, ?_, hr⟩
    · simp [Block.writeCall, hd]
    · rcases he with ⟨-, rfl⟩ | ⟨-, hpol, -⟩
      · exact .inl rfl
      · exact .inr ⟨hpol, _, hd⟩
  | reported r hp ha => exact (Block.wf_idle rfl).2 ⟨rfl, rfl, rfl, Block.responses_append h r⟩

theorem Block.Move.keeps_wf {fb : List Host.Cell} {n : Nat} {t : Turn} (hm : b.Move cfg p fb n t b')
    (h : b.wf cfg p = true) : b'.wf cfg p = true := by
  cases hm with
  | unmoved ht => exact h
  | sequencer hm => exact hm.keeps_wf h
  | accessor hm =>
    cases hm with
    | idle hc => exact h
    | readAnswered hc hk hd hst => exact Block.wf_answered h hc _
    | answered hc hk => exact Block.wf_answered h hc _
  | take =>
    simp only [Block.wf, Bool.and_eq_true, List.all_eq_true] at h ⊢
    exact ⟨h.1, fun w hw => h.2 w (List.mem_of_mem_tail hw)⟩
  | reset => rfl

end

/-! ### The framebuffer -/

theorem fbKey_lt (row : Coord) {k : Nat} (hk : k < 65536) : fbKey row k < 2 ^ 32 := by
  have := row.isLt
  unfold fbKey
  omega

/-- A masked call addresses a byte of its row (R28). -/
theorem byteIndex_lt (d : SubDepth) (col : Coord) : byteIndex d col < 65536 / ppb d := by
  have := col.isLt
  cases d <;> simp only [byteIndex, ppb, SubDepth.bits] <;> omega

/-- A stored pixel has the bits of its depth (R29, R35). -/
theorem storedPixel_lt (d : WideDepth) (wdata : Color) : (storedPixel d wdata).toNat < 2 ^ d.bits := by
  rw [storedPixel, BitVec.toNat_setWidth]
  exact lt_of_le_of_lt (Nat.mod_le _ _) (wdata.setWidth d.bits).isLt

/-- A write keeps the framebuffer in its form and shape, whatever the call says (R28, R29). -/
theorem State.store_keeps_frame {s : State} (q : Request)
    (h : Memory.wf s.fb = true ∧ Memory.wf s.px = true ∧ s.frameWf = true) :
    Memory.wf (s.store q).fb = true ∧ Memory.wf (s.store q).px = true ∧ (s.store q).frameWf = true := by
  obtain ⟨hfb, hpx, hframe⟩ := h
  cases hd : s.cfg.depth with
  | sub d =>
    simp only [State.frameWf, State.store, hd, Bool.and_eq_true, decide_eq_true_eq, List.all_eq_true] at hframe ⊢
    obtain ⟨hnil, hkeys⟩ := hframe
    refine ⟨Memory.write_wf _ _ _ hfb, hpx, hnil, fun c hc => ?_⟩
    rcases Memory.mem_write hc with rfl | hc
    · have hk := byteIndex_lt d q.col
      have hrow : byteIndex d q.col < 65536 := lt_of_lt_of_le hk (Nat.div_le_self _ _)
      refine ⟨fbKey_lt q.row hrow, ?_⟩
      rwa [fbAddress, fbKey, Nat.mul_add_mod', Nat.mod_eq_of_lt hrow]
    · exact hkeys c hc
  | wide d =>
    simp only [State.frameWf, State.store, hd, Bool.and_eq_true, decide_eq_true_eq, List.all_eq_true] at hframe ⊢
    obtain ⟨hnil, hpixels⟩ := hframe
    refine ⟨hfb, Memory.write_wf _ _ _ hpx, hnil, fun c hc => ?_⟩
    rcases Memory.mem_write hc with rfl | hc
    · exact ⟨fbKey_lt q.row q.col.isLt, storedPixel_lt d q.wdata⟩
    · exact hpixels c hc

/-- Every turn keeps the invariant. -/
theorem State.Effect.keeps_wf {s s' : State} {t : Turn} (eff : s.Effect t s') (h : s.wf = true) : s'.wf = true := by
  obtain ⟨hfb, hpx, hframe, hblocks, hlate⟩ := State.wf_iff.1 h
  have hframe' : s'.frameWf = (s.withWrite (s.writeOfTurn t)).frameWf := by
    simp only [State.frameWf, eff.cfg, eff.fb, eff.px, State.withWrite_cfg]
  have hwrite : Memory.wf s'.fb = true ∧ Memory.wf s'.px = true ∧ s'.frameWf = true := by
    rw [hframe', eff.fb, eff.px]
    cases s.writeOfTurn t with
    | none => exact ⟨hfb, hpx, hframe⟩
    | some q => exact State.store_keeps_frame q ⟨hfb, hpx, hframe⟩
  refine State.wf_iff.2 ⟨hwrite.1, hwrite.2.1, hwrite.2.2, fun b' hb' => ?_, fun q hq => ?_⟩
  · obtain ⟨n, hn⟩ := List.getElem?_of_mem hb'
    obtain ⟨b, hb, hm⟩ := eff.move_of_block hn
    rw [eff.cfg, eff.policy]
    exact hm.keeps_wf (State.wf_block h hb)
  · rw [eff.cfg]
    rcases eff.late q hq with hq | ⟨b, hb, hc⟩
    · exact hlate q hq
    · exact Block.wf_legalCall (hblocks b hb) hc

/-- Settles O39. -/
theorem stepKeepsWellFormed : Obligations.StepKeepsWellFormed := by
  intro s s' h hs
  rcases step_effect_cases hs with ⟨-, rfl⟩ | ⟨t, ts, -, eff⟩
  · exact h
  · exact eff.keeps_wf h

/-- Settles O37: the one instance of the reset state is as reset leaves it. -/
theorem resetStateIsWellFormed : Obligations.ResetStateIsWellFormed := by
  refine ⟨by decide, fun b hb => ?_⟩
  obtain rfl : b = Block.reset := List.mem_singleton.1 hb
  exact ⟨rfl, rfl, rfl, rfl⟩

/-! ### The read-to-write window -/

/-- A copy is held from the successful read's answer to the performance of the write (R24). -/
theorem Block.heldCopy_eq_some {cfg : Config} {b : Block} {c : Nat × Byte} :
    b.heldCopy cfg = some c ↔ ∃ d, cfg.depth = .sub d ∧ c.1 = fbAddress d b.lRow b.lCol ∧
      ((b.phase = .rdWait ∧ ∃ a, b.answer = some a ∧ a.st = .ok ∧ c.2 = a.rdata) ∨
       (b.phase = .wrWait ∧ b.call.isSome = true ∧ b.readErr = none ∧ c.2 = b.lByte)) := by
  obtain ⟨k, v⟩ := c
  cases hd : cfg.depth with
  | wide d => simp [Block.heldCopy, hd]
  | sub d =>
    cases hp : b.phase with
    | idle => simp [Block.heldCopy, hd, hp]
    | rdWait => cases ha : b.answer <;> grind [Block.heldCopy]
    | wrWait => grind [Block.heldCopy]

/-- A sequencer comes to hold no copy that it did not hold: it only carries the byte read over to its write (R79). -/
theorem Block.SequencerMove.heldCopy_kept {cfg : Config} {p : ReadFailPolicy} {b b' : Block} {c : Nat × Byte}
    (hm : b.SequencerMove cfg p b') (hc : b'.heldCopy cfg = some c) : b.heldCopy cfg = some c := by
  obtain ⟨d, hd, haddr, hheld⟩ := Block.heldCopy_eq_some.1 hc
  cases hm with
  | wait => exact hc
  | answered r hp hw => simp at hheld
  | readIssued row col color hp hw hd => simp at hheld
  | pixelIssued row col color hp hw hd' =>
    rw [hd] at hd'
    cases hd'
  | mergedIssued hp ha hd' he =>
    rcases he with ⟨hst, rfl⟩ | ⟨-, -, rfl⟩
    · exact Block.heldCopy_eq_some.2 ⟨d, hd, haddr, .inl ⟨hp, _, ha, hst, by simpa using hheld⟩⟩
    · simp at hheld
  | reported r hp ha => simp at hheld

/-- What the RowAccessor's turn leaves a well-formed instance holding: what it held, with no call outstanding, or the
byte just read (R24, R33). -/
theorem Block.AccessorMove.heldCopy_cases {cfg : Config} {p : ReadFailPolicy} {fb : List Host.Cell} {dr : Draw}
    {b b' : Block} {c : Nat × Byte} (hm : b.AccessorMove cfg fb dr b') (h : b.wf cfg p = true)
    (hc : b'.heldCopy cfg = some c) :
    (b.call = none ∧ b' = b) ∨ ∃ q, b.call = some q ∧ q.kind = .read ∧ Memory.read fb c.1 = c.2 := by
  obtain ⟨d, hd, haddr, hheld⟩ := Block.heldCopy_eq_some.1 hc
  cases hm with
  | idle hcall => exact .inl ⟨hcall, rfl⟩
  | readAnswered hcall hk hd' hst =>
    refine .inr ⟨_, hcall, hk, ?_⟩
    rcases Block.wf_call h hcall with ⟨-, d', -, rfl⟩ | ⟨-, rfl⟩
    · rw [hd] at hd'
      cases hd'
      obtain ⟨-, hval⟩ : b.phase = .rdWait ∧ c.2 = Memory.read fb (fbAddress d b.lRow b.lCol) := by
        simpa [Machine.readCall] using hheld
      rw [hval, haddr]
    · rw [Block.writeCall_kind] at hk
      cases hk
  | answered hcall hk =>
    obtain ⟨hp, hst, -⟩ : b.phase = .rdWait ∧ dr.st = .ok ∧ c.2 = dr.rdata := by simpa using hheld
    rcases Block.wf_call h hcall with ⟨-, d', -, rfl⟩ | ⟨hp', -⟩
    · simp [Machine.readCall, hst] at hk
    · rw [hp] at hp'
      cases hp'

/-- The turn in which an instance's call is performed is a turn of that instance. -/
theorem Turn.actor_of_caller {t : Turn} {n : Nat} (h : t.caller = some n) : t.actor = some n := by
  cases t <;> cases h
  rfl

/-- A copy held after a turn was held before it, and the turn did not perform its own instance's write; or it has just
been read, in a turn that writes nothing. -/
theorem Block.Move.heldCopy_cases {s : State} {n : Nat} {t : Turn} {b b' : Block} {c : Nat × Byte}
    (hb : s.blocks[n]? = some b) (h : b.wf s.cfg s.policy = true) (hm : b.Move s.cfg s.policy s.fb n t b')
    (hc : b'.heldCopy s.cfg = some c) :
    (b.heldCopy s.cfg = some c ∧ (t.caller = some n → s.writeOfTurn t = none)) ∨
      (s.writeOfTurn t = none ∧ Memory.read s.fb c.1 = c.2) := by
  cases hm with
  | unmoved ht => exact .inl ⟨hc, fun hcaller => absurd (Turn.actor_of_caller hcaller) ht⟩
  | sequencer hm => exact .inl ⟨hm.heldCopy_kept hc, fun _ => rfl⟩
  | accessor hm =>
    rw [s.writeOfTurn_accessor hb]
    rcases hm.heldCopy_cases h hc with ⟨hcall, rfl⟩ | ⟨q, hcall, hk, hval⟩
    · exact .inl ⟨hc, fun _ => by rw [hcall]; rfl⟩
    · exact .inr ⟨by simp [hcall, hk], hval⟩
  | take => exact .inl ⟨hc, fun _ => rfl⟩
  | reset => simp [Block.heldCopy_eq_some, Block.reset] at hc

/-- Settles O53: a copy kept over a turn is of a byte that the turn does not write, by its own instance or by another
agent; and a copy just read is the byte. -/
theorem windowCopiesStayFresh : Obligations.WindowCopiesStayFresh := by
  intro s s' h hfresh hno hs
  rcases step_effect_cases hs with ⟨-, rfl⟩ | ⟨t, ts, ht, eff⟩
  · exact hfresh
  refine State.copiesFresh_iff.2 fun n b' c hb' hc => ?_
  obtain ⟨b, hb, hm⟩ := eff.move_of_block hb'
  rw [eff.cfg] at hc
  rw [eff.fb]
  rcases hm.heldCopy_cases hb (State.wf_block h hb) hc with ⟨hold, hown⟩ | ⟨hw, hread⟩
  · have hbefore : Memory.read s.fb c.1 = c.2 := State.copiesFresh_iff.1 hfresh n b c hb hold
    cases hw : s.writeOfTurn t with
    | none => exact hbefore
    | some q =>
      have hother : t.caller ≠ some n := fun e => by rw [hown e] at hw; cases hw
      have haddr : targetAddress s.cfg.depth q.row q.col ≠ c.1 := hno t ts q n b c ht hw hb hother hold
      exact (s.read_store_other haddr.symm).1.trans hbefore
  · rw [hw]
    exact hread

end Sys2Proof.Machine

/-! PROOFS. R33 to R37, R40, R43, R100: what the RowAccessor does with a call, whoever issued it: an instance, another
agent, or an instance that has been reset since; and the machine that R43 starts from. -/

namespace Sys2Proof.Machine

/-! ### One write call -/

/-- At a masked depth a write call replaces the containing byte (R34). -/
theorem State.store_sub {s : State} {d : SubDepth} (hd : s.cfg.depth = .sub d) (q : Request) :
    s.store q = { s with fb := Memory.write s.fb (fbAddress d q.row q.col) (storedByte q.wdata) } := by
  simp only [State.store, hd]

/-- At a direct depth a write call replaces the pixel (R35). -/
theorem State.store_wide {s : State} {d : WideDepth} (hd : s.cfg.depth = .wide d) (q : Request) :
    s.store q = { s with px := Memory.write s.px (pxAddress q.row q.col) (storedPixel d q.wdata) } := by
  simp only [State.store, hd]

@[simp] theorem storedByte_writeByteCall (d : SubDepth) (row col : Coord) (v : Byte) :
    storedByte (writeByteCall d row col v).wdata = v :=
  storedByte_setWidth v

/-- A direct write call stores `WDATA[BPP-1:0]` (R35). -/
theorem storedPixel_toNat (d : WideDepth) (wdata : Color) :
    (storedPixel d wdata).toNat = wdata.toNat % 2 ^ d.bits := by
  have hbits : d.bits ≤ 32 := by cases d <;> decide
  rw [storedPixel, BitVec.toNat_setWidth_of_le hbits, BitVec.toNat_setWidth]

/-- Settles O33: the second store writes the key of the first. -/
theorem writeCallIsIdempotent : Obligations.WriteCallIsIdempotent := by
  intro s q hfb hpx
  cases hd : s.cfg.depth with
  | sub d =>
    rw [State.store_sub (s := s.store q) ((congrArg _ (s.store_cfg q)).trans hd), State.store_sub hd]
    simp only [Memory.write_write _ _ _ _ hfb]
  | wide d =>
    rw [State.store_wide (s := s.store q) ((congrArg _ (s.store_cfg q)).trans hd), State.store_wide hd]
    simp only [Memory.write_write _ _ _ _ hpx]

/-! ### The call of an instance -/

/-- What a write call with the draw `dr` makes of its framebuffer: the write, if the call succeeds or lands (R34, R35,
R37). -/
def Draw.write {w : Nat} (dr : Draw) (m : List (Nat × BitVec w)) (a : Nat) (v : BitVec w) :
    List (Nat × BitVec w) :=
  if dr.st = .ok ∨ dr.landed = true then Memory.write m a v else m

/-- A drawn write leaves the other keys as they read; its own reads as written if it succeeds or lands, and else nothing
changes (R37). -/
theorem Draw.write_spec {w : Nat} {m : List (Nat × BitVec w)} (h : Memory.wf m = true) (dr : Draw) (a : Nat)
    (v : BitVec w) :
    (∀ c, c ≠ a → Memory.read (dr.write m a v) c = Memory.read m c) ∧
      (dr.st = .ok ∨ dr.landed = true → Memory.read (dr.write m a v) a = v) ∧
      (dr.st = .err ∧ dr.landed = false → dr.write m a v = m) := by
  by_cases hl : dr.st = .ok ∨ dr.landed = true
  · rw [Draw.write, if_pos hl]
    refine ⟨fun c hc => Memory.read_write_other m a c v hc, fun _ => Memory.read_write_same m a v h, ?_⟩
    rintro ⟨hst, hno⟩
    simp [hst, hno] at hl
  · rw [Draw.write, if_neg hl]
    exact ⟨fun _ _ => rfl, fun h => absurd h hl, fun _ => rfl⟩

section
variable {s : State} {q : Request} {dr : Draw}

/-- An outstanding read call is answered with the containing byte or with the draw's (R33, R36). -/
theorem accessorTurn_read {d : SubDepth} (hd : s.cfg.depth = .sub d) (hc : s.here.call = some q)
    (hk : q.kind = .read) :
    s.accessorTurn dr =
      .next (s.reply ⟨dr.st, dr.err, if dr.st = .ok then s.fbByte d q.row q.col else dr.rdata⟩) := by
  cases hst : dr.st <;> simp [State.accessorTurn, State.answerRead, hc, hk, hd, hst]

/-- An outstanding write call is performed by its draw and answered with it (R34, R35, R37). -/
theorem accessorTurn_write (hc : s.here.call = some q) (hk : q.kind = .write) :
    s.accessorTurn dr = .next
      ((s.withWrite (if dr.st = .ok ∨ dr.landed = true then some q else none)).reply
        ⟨dr.st, dr.err, dr.rdata⟩) := by
  simp only [State.accessorTurn, hc, hk, State.answerWrite_eq_reply]

/-- A drawn write call at a masked depth (R34). -/
theorem State.withWrite_draw_sub {d : SubDepth} (hd : s.cfg.depth = .sub d) :
    s.withWrite (if dr.st = .ok ∨ dr.landed = true then some q else none) =
      { s with fb := dr.write s.fb (fbAddress d q.row q.col) (storedByte q.wdata) } := by
  by_cases hl : dr.st = .ok ∨ dr.landed = true
  · rw [if_pos hl, State.withWrite_some, State.store_sub hd, Draw.write, if_pos hl]
  · rw [if_neg hl, State.withWrite_none, Draw.write, if_neg hl]

/-- A drawn write call at a direct depth (R35). -/
theorem State.withWrite_draw_wide {d : WideDepth} (hd : s.cfg.depth = .wide d) :
    s.withWrite (if dr.st = .ok ∨ dr.landed = true then some q else none) =
      { s with px := dr.write s.px (pxAddress q.row q.col) (storedPixel d q.wdata) } := by
  by_cases hl : dr.st = .ok ∨ dr.landed = true
  · rw [if_pos hl, State.withWrite_some, State.store_wide hd, Draw.write, if_pos hl]
  · rw [if_neg hl, State.withWrite_none, Draw.write, if_neg hl]

end

/-- Settles O30: the answer is the byte or the draw's, and driving it touches the instance alone. -/
theorem accessorAnswersRead : Obligations.AccessorAnswersRead := by
  intro s t n ts d q dr h hf hd hc hk
  rw [step_accessor h hf, accessorTurn_read hd hc hk]
  cases hst : dr.st <;> rfl

/-- Settles O31: what the call makes of the bytes is the draw's write of `WDATA[7:0]`. -/
theorem accessorPerformsMaskedWrite : Obligations.AccessorPerformsMaskedWrite := by
  intro s t n ts d q dr h hf hd hc hk hwf
  refine ⟨dr.write t.fb (fbAddress d q.row q.col) (storedByte q.wdata), ?_, Draw.write_spec hwf dr _ _⟩
  rw [step_accessor h hf, accessorTurn_write hc hk, State.withWrite_draw_sub hd]
  rfl

/-- Settles O32: what the call makes of the pixels is the draw's write of `WDATA[BPP-1:0]`. -/
theorem accessorPerformsDirectWrite : Obligations.AccessorPerformsDirectWrite := by
  intro s t n ts d q dr h hf hd hc hk hwf
  obtain ⟨hother, hsame, hkept⟩ := Draw.write_spec hwf dr (pxAddress q.row q.col) (storedPixel d q.wdata)
  refine ⟨_, ?_, hother, fun hl => ?_, hkept⟩
  · rw [step_accessor h hf, accessorTurn_write hc hk, State.withWrite_draw_wide hd]
    rfl
  · rw [hsame hl, storedPixel_toNat]

/-! ### The calls of which no instance sees a response -/

/-- The write of another agent at a masked depth (R34, R45). -/
theorem step_other_write_sub {s : State} {q : Request} {ts : List Turn} {d : SubDepth} (h : s.turns = .other q :: ts)
    (hd : s.cfg.depth = .sub d) (hk : q.kind = .write) :
    step s = .next { s with
      turns := ts, fb := Memory.write s.fb (fbAddress d q.row q.col) (storedByte q.wdata) } := by
  rw [step_other h, State.perform_eq_withWrite, if_pos hk, State.withWrite_some,
    State.store_sub (s := { s with turns := ts }) hd]

/-- The write of another agent at a direct depth (R35, R45). -/
theorem step_other_write_wide {s : State} {q : Request} {ts : List Turn} {d : WideDepth} (h : s.turns = .other q :: ts)
    (hd : s.cfg.depth = .wide d) (hk : q.kind = .write) :
    step s = .next { s with
      turns := ts, px := Memory.write s.px (pxAddress q.row q.col) (storedPixel d q.wdata) } := by
  rw [step_other h, State.perform_eq_withWrite, if_pos hk, State.withWrite_some,
    State.store_wide (s := { s with turns := ts }) hd]

/-- Settles O56: a write of another agent is a store of its own value, and its read is nothing. -/
theorem otherAgentCallIsPerformed : Obligations.OtherAgentCallIsPerformed := by
  intro s ts q h hfb hpx
  cases hk : q.kind with
  | read => exact ⟨s.fb, s.px, by simp [step_other h, State.perform, hk], rfl, rfl⟩
  | write =>
    cases hd : s.cfg.depth with
    | sub d =>
      exact ⟨_, s.px, step_other_write_sub h hd hk, rfl, Memory.read_write_same _ _ _ hfb,
        fun a ha => Memory.read_write_other _ _ _ _ ha⟩
    | wide d =>
      refine ⟨s.fb, _, step_other_write_wide h hd hk, rfl, ?_, fun a ha => Memory.read_write_other _ _ _ _ ha⟩
      rw [Memory.read_write_same _ _ _ hpx, storedPixel_toNat]

/-- An abandoned call leaves the list, and its write is performed if it lands (R100). -/
theorem State.lateTurn_eq_withWrite {s : State} {k : Nat} {q : Request} (h : s.late[k]? = some q) (landed : Bool) :
    s.lateTurn k landed = ({ s with late := s.late.eraseIdx k } : State).withWrite
      (if landed = true ∧ q.kind = .write then some q else none) := by
  cases landed <;> simp [State.lateTurn, h, State.perform_eq_withWrite]

/-- Settles O36: the turn is the call's write, if it lands, in the state without the call. -/
theorem abandonedCallLandsOrNot : Obligations.AbandonedCallLandsOrNot := by
  intro s ts k landed q h hq
  have hstep : step s = .next (({ s with turns := ts } : State).lateTurn k landed) := by
    simp only [step, h, runTurn]
  rw [State.lateTurn_eq_withWrite (s := { s with turns := ts }) hq] at hstep
  refine ⟨_, hstep, State.withWrite_blocks _ _, State.withWrite_late _ _, ?_⟩
  split
  · exact State.withWrite_congr (s := s) (u := { s with turns := ts, late := s.late.eraseIdx k }) rfl rfl rfl (some q)
  · exact ⟨rfl, rfl⟩

/-! ### The machine after power-up -/

/-- Settles O38: after power-up every instance is as reset leaves it, and no call is abandoned. -/
theorem powerUpIsWellFormed : Obligations.PowerUpIsWellFormed := by
  intro cfg policy n fb px hfb hpx hframe
  have hblocks : (State.powerUp cfg policy n fb px).blocks = List.replicate (n + 1) Block.reset := rfl
  rw [State.wf_iff, hblocks]
  refine ⟨⟨hfb, hpx, hframe, fun b hb => ?_, by simp [State.powerUp]⟩, List.length_replicate⟩
  obtain rfl := List.eq_of_mem_replicate hb
  rfl

end Sys2Proof.Machine

/-! PROOFS. R44, R47, R79, R84: where an outstanding call comes from, and what the write of a fresh copy makes of its
byte. -/

namespace Sys2Proof.Machine

/-! ### The order of the calls -/

/-- How a move of its own sequencer comes to leave `b` with the call `q`: from `IDLE` by the first call of its path, or
from `RD_WAIT` by the write call of the masked path; the kind of a call tells which (R44, R79, R82, R84). -/
def Block.CallOrder (d : Depth) (b b' : Block) (q : Request) : Prop :=
  match d, q.kind with
  | .sub _, .read => b.phase = .idle ∧ b'.phase = .rdWait
  | .sub _, .write => b.phase = .rdWait ∧ b'.phase = .wrWait
  | .wide _, .read => False
  | .wide _, .write => b.phase = .idle ∧ b'.phase = .wrWait

section
variable {cfg : Config} {p : ReadFailPolicy} {b b' : Block} {q : Request}

theorem Block.waitsFor_call_none {a : Answer} (h : b.waitsFor q = true) (ha : b.answer = some a) : b.call = none := by
  rcases Block.waitsFor_iff.1 h with ⟨-, hnone⟩ | ⟨hcall, -⟩
  · rw [ha] at hnone
    cases hnone
  · exact hcall

/-- A well-formed block whose call is answered has none outstanding (R44). -/
theorem Block.wf_call_none {a : Answer} (h : b.wf cfg p = true) (ha : b.answer = some a) : b.call = none := by
  cases hp : b.phase with
  | idle => exact ((Block.wf_idle hp).1 h).1
  | rdWait =>
    obtain ⟨-, ⟨d, -, hw⟩, -⟩ := (Block.wf_rdWait hp).1 h
    exact Block.waitsFor_call_none hw ha
  | wrWait =>
    obtain ⟨hw, -⟩ := (Block.wf_wrWait hp).1 h
    exact Block.waitsFor_call_none hw ha

theorem Block.SequencerMove.call_order (hm : b.SequencerMove cfg p b') (h : b.wf cfg p = true)
    (hc' : b'.call = some q) (hc : b.call ≠ some q) : b.call = none ∧ Block.CallOrder cfg.depth b b' q := by
  cases hm with
  | wait => exact absurd hc' hc
  | answered r hp hw => exact absurd hc' hc
  | readIssued row col color hp hw hd =>
    obtain rfl := Option.some.inj hc'
    obtain ⟨hnone, -⟩ := (Block.wf_idle hp).1 h
    rw [hd]
    exact ⟨hnone, hp, rfl⟩
  | pixelIssued row col color hp hw hd =>
    obtain rfl := Option.some.inj hc'
    obtain ⟨hnone, -⟩ := (Block.wf_idle hp).1 h
    rw [hd]
    exact ⟨hnone, hp, rfl⟩
  | mergedIssued hp ha hd he =>
    obtain rfl := Option.some.inj hc'
    rw [hd]
    exact ⟨Block.wf_call_none h ha, hp, rfl⟩
  | reported r hp ha => cases hc'

/-- Only its own sequencer's turn gives an instance a call (R44). -/
theorem Block.Move.call_order {fb : List Host.Cell} {n : Nat} {t : Turn} (hm : b.Move cfg p fb n t b')
    (h : b.wf cfg p = true) (hc' : b'.call = some q) (hc : b.call ≠ some q) :
    t = .sequencer n ∧ b.call = none ∧ Block.CallOrder cfg.depth b b' q := by
  cases hm with
  | unmoved ht => exact absurd hc' hc
  | sequencer hm => exact ⟨rfl, hm.call_order h hc' hc⟩
  | accessor hm =>
    cases hm with
    | idle hnone => exact absurd hc' hc
    | readAnswered hcall hk hd hst => cases hc'
    | answered hcall hk => cases hc'
  | take => exact absurd hc' hc
  | reset => cases hc'

end

/-- Settles O44: the new call comes by a move of the instance's own sequencer, and the invariant makes it a legal one. -/
theorem callsComeInOrder : Obligations.CallsComeInOrder := by
  intro s s' t ts n b b' q h ht hs hb hb' hc' hc
  have eff := step_effect ht hs
  obtain ⟨b₀, hb₀, hm⟩ := eff.move_of_block hb'
  obtain rfl : b = b₀ := Option.some.inj (hb.symm.trans hb₀)
  have hwf := State.wf_block h hb
  obtain ⟨hown, hnone, horder⟩ := hm.call_order hwf hc' hc
  exact ⟨hown, hnone, Block.wf_legalCall (hm.keeps_wf hwf) hc', horder⟩

/-! ### The write of a fresh copy -/

/-- Settles O54: the call is the write of the merge of the byte read, and that byte is the one that stands there. -/
theorem freshWriteMergesCurrentByte : Obligations.FreshWriteMergesCurrentByte := by
  intro s s' n dr ts b q d h hfresh ht hst hb hp hc hre hd hs
  obtain ⟨hfb, -⟩ := State.wf_iff.1 h
  have hcopy : Memory.read s.fb (fbAddress d b.lRow b.lCol) = b.lByte :=
    State.copiesFresh_iff.1 hfresh n b (fbAddress d b.lRow b.lCol, b.lByte) hb
      (Block.heldCopy_eq_some.2 ⟨d, hd, rfl, .inr ⟨hp, by simp [hc], hre, rfl⟩⟩)
  have hcall : q = writeByteCall d b.lRow b.lCol (mergeAt d s.cfg.order b.lByte b.lColor b.lCol) := by
    rcases Block.wf_call (State.wf_block h hb) hc with ⟨hp', -⟩ | ⟨-, hq⟩
    · rw [hp] at hp'
      cases hp'
    · simpa only [Block.writeCall, hd] using hq
  have hwrite : s.writeOfTurn (.accessor n dr) = some q := by
    simp [s.writeOfTurn_accessor hb, hc, hst, hcall, writeByteCall]
  rw [(step_effect ht hs).fb, hwrite, State.withWrite_some, State.store_sub hd, hcopy, hcall, storedByte_writeByteCall]
  exact Memory.read_write_same _ _ _ hfb

end Sys2Proof.Machine

/-! PROOFS. R46, R79: a masked SETPIXEL as its two halves, the read and the write, with whatever other agents do between
them; and the updates lost there. -/

namespace Sys2Proof.Machine

/-! ### The turns of a masked SETPIXEL -/

/-- SETPIXEL is legal at every depth, so its word decodes at every depth (R50, R53, R54). -/
theorem decode_encode_setpixel (d : Depth) (row col : Coord) (color : Color) :
    decode d (encode (.setpixel row col color)) = .ok (.setpixel row col color) := by
  simp [decode, decodeWord, decodeSetpixel, encode, Instr.wf]

section
variable {s : State} {d : SubDepth} {row col : Coord} {color : Color} {ws : List CmdWord} {a : Answer}

/-- A sequencer in `IDLE` accepts a masked SETPIXEL (R79). -/
theorem sequencerTurn_setpixel_sub (hd : s.cfg.depth = .sub d) (hp : s.here.phase = .idle)
    (hw : s.here.commands = encode (.setpixel row col color) :: ws) :
    sequencerTurn s = .next (((s.setCommands ws).latch row col color).issue (readCall d row col) .rdWait) := by
  simp only [sequencerTurn, acceptTurn, hp, hw, decode_encode_setpixel, exec, execSetpixel, State.setCommands_cfg, hd]
  rw [State.whenIdle_idle (s.setCommands ws) _ hp]

/-- A sequencer in `RD_WAIT` goes on with the byte read (R79). -/
theorem sequencerTurn_read_ok (hd : s.cfg.depth = .sub d) (hp : s.here.phase = .rdWait) (ha : s.here.answer = some a)
    (hst : a.st = .ok) :
    sequencerTurn s = .next ((s.capture a.rdata none).issue
      (writeByteCall d s.here.lRow s.here.lCol (mergeAt d s.cfg.order a.rdata s.here.lColor s.here.lCol)) .wrWait) := by
  simp only [sequencerTurn, hp, ha, onReadAnswer, hd, hst]
  rfl

/-- The write call of the masked path replaces the byte, where it succeeds (R34). -/
theorem accessorTurn_writeByte_ok {v : Byte} {dw : Draw} (hd : s.cfg.depth = .sub d)
    (hc : s.here.call = some (writeByteCall d row col v)) (hst : dw.st = .ok) :
    s.accessorTurn dw = .next (({ s with fb := Memory.write s.fb (fbAddress d row col) v } : State).reply
      ⟨.ok, dw.err, dw.rdata⟩) := by
  rw [accessorTurn_write hc rfl, State.withWrite_draw_sub hd, Draw.write, if_pos (.inl hst), hst,
    storedByte_writeByteCall]
  rfl

/-- A sequencer in `WR_WAIT` reports `OK` where both calls succeeded (R79). -/
theorem sequencerTurn_write_ok (hp : s.here.phase = .wrWait) (ha : s.here.answer = some a) (hst : a.st = .ok)
    (hre : s.here.readErr = none) : sequencerTurn s = .next (s.receive.respond okDone) := by
  simp only [sequencerTurn, hp, ha, onWriteAnswer, finalResponse, hre, hst]

end

section
variable {s u : State} {n k : Nat} {dr : Draw} {ts : List Turn}

/-- A run whose first turn is that of the sequencer in focus. -/
theorem run_sequencer (h : s.turns = .sequencer n :: ts) (hn : s.before.length = n)
    (hu : sequencerTurn { s with turns := ts } = .next u) : run (k + 1) s = run k u := by
  subst hn
  exact run_succ ((step_sequencer_self h).trans hu)

/-- A run whose first turn is the RowAccessor's for the instance in focus. -/
theorem run_accessor (h : s.turns = .accessor n dr :: ts) (hn : s.before.length = n)
    (hu : ({ s with turns := ts } : State).accessorTurn dr = .next u) : run (k + 1) s = run k u := by
  subst hn
  exact run_succ ((step_accessor_self h).trans hu)

end

/-! ### Its two halves -/

/-- The instance after the first half of a masked SETPIXEL, with the read answered by `a`. -/
def Block.readDone (b : Block) (row col : Coord) (color : Color) (ws : List CmdWord) (a : Answer) : Block :=
  { b with
    lRow := row, lCol := col, lColor := color, commands := ws
    readErr := none, call := none, answer := some a, phase := .rdWait }

/-- The instance after the second half of a masked SETPIXEL, with the byte `v` read and its calls successful. -/
def Block.writeDone (b : Block) (v : Byte) : Block :=
  { b with
    lByte := v, responses := b.responses ++ [okDone.word]
    readErr := none, call := none, answer := none, phase := .idle }

/-- The command drives the word `OK` and no other. -/
@[simp] theorem Block.writeDone_responses (b : Block) (v : Byte) :
    (b.writeDone v).responses = b.responses ++ [0x00000000#32] := by
  rw [← okDone_word]
  rfl

@[simp] theorem Block.readDone_responses (b : Block) (row col : Coord) (color : Color) (ws : List CmdWord) (a : Answer) :
    (b.readDone row col color ws a).responses = b.responses := rfl

section
variable {s t : State} {n : Nat} {d : SubDepth} {ts : List Turn}

/-- The first half: the command is accepted and its read performed (R79, step 1). -/
theorem run_maskedRead {row col : Coord} {color : Color} {ws : List CmdWord} {dr : Draw}
    (h : s.turns = .sequencer n :: .accessor n dr :: ts) (hf : ({ s with turns := ts } : State).focus n = some t)
    (hd : t.cfg.depth = .sub d) (hp : t.here.phase = .idle)
    (hw : t.here.commands = encode (.setpixel row col color) :: ws) (hst : dr.st = .ok) :
    run 2 s = .next (t.mapHere fun b => b.readDone row col color ws ⟨.ok, dr.err, t.fbByte d row col⟩) := by
  have hn : t.before.length = n := State.focus_before_length hf
  obtain ⟨-, -, -, -, -, rfl⟩ := State.focus_shared hf
  rw [run_focus h rfl hf]
  refine Eq.trans (run_sequencer rfl hn (sequencerTurn_setpixel_sub hd hp hw)) ?_
  refine Eq.trans (run_accessor rfl hn (accessorTurn_read hd rfl rfl)) ?_
  rw [run_zero, hst]
  rfl

/-- The second half: the byte read is merged, the merged byte written and the outcome reported (R79, steps 2 to 5). -/
theorem run_maskedWrite {a : Answer} {dw : Draw}
    (h : s.turns = .sequencer n :: .accessor n dw :: .sequencer n :: ts)
    (hf : ({ s with turns := ts } : State).focus n = some t)
    (hd : t.cfg.depth = .sub d) (hp : t.here.phase = .rdWait) (ha : t.here.answer = some a) (hst : a.st = .ok)
    (hst' : dw.st = .ok) :
    run 3 s = .next { t with
      fb := Memory.write t.fb (fbAddress d t.here.lRow t.here.lCol)
        (mergeAt d t.cfg.order a.rdata t.here.lColor t.here.lCol)
      here := t.here.writeDone a.rdata } := by
  have hn : t.before.length = n := State.focus_before_length hf
  obtain ⟨-, -, -, -, -, rfl⟩ := State.focus_shared hf
  rw [run_focus h rfl hf]
  refine Eq.trans (run_sequencer rfl hn (sequencerTurn_read_ok hd hp ha hst)) ?_
  refine Eq.trans (run_accessor rfl hn (accessorTurn_writeByte_ok hd rfl hst')) ?_
  exact Eq.trans (run_sequencer rfl hn (sequencerTurn_write_ok rfl rfl rfl rfl)) rfl

end

/-! ### The halves from outside the instance -/

/-- The turns of instance `n` lead from `s` to `s'`, with the framebuffer `fb` and that instance as `b'` after them and
the turns `ts` left; the configuration and the other instances are as before (R97). -/
structure State.LeadsTo (s : State) (n : Nat) (fb : List Host.Cell) (b' : Block) (ts : List Turn) (s' : State) :
    Prop where
  cfg : s'.cfg = s.cfg
  fb : s'.fb = fb
  turns : s'.turns = ts
  here : s'.here = b'
  block : s'.blocks[n]? = some b'
  other : ∀ m, m ≠ n → s'.blocks[m]? = s.blocks[m]?

theorem State.leadsTo_of_focus {s t : State} {n : Nat} {ts : List Turn}
    (hf : ({ s with turns := ts } : State).focus n = some t) (fb : List Host.Cell) (b' : Block) :
    s.LeadsTo n fb b' ts { t with fb := fb, here := b' } := by
  obtain ⟨hcfg, -, -, -, -, hts⟩ := State.focus_shared hf
  have hblock (m : Nat) : ({ t with fb := fb, here := b' } : State).blocks[m]? =
      if m = n then some b' else s.blocks[m]? := by
    have hb := State.focus_blocks hf
    have hm := State.mapHere_block t (fun _ => b') m
    rw [State.focus_before_length hf, hb] at hm
    exact hm
  exact ⟨hcfg, rfl, hts, rfl, by simp [hblock], fun m hm => by simp [hblock, hm]⟩

/-- An instance that exists can be brought into focus, whatever turns are left. -/
theorem State.focus_of_block {s : State} {n : Nat} {b : Block} (hb : s.blocks[n]? = some b) (ts : List Turn) :
    ∃ t, ({ s with turns := ts } : State).focus n = some t ∧ t.here = b ∧ t.cfg = s.cfg ∧ t.fb = s.fb :=
  ⟨_, State.focus_eq_some.2 ⟨b, hb, rfl⟩, rfl, rfl, rfl⟩

section
variable {s : State} {n : Nat} {b : Block} {d : SubDepth} {ts : List Turn}

/-- The first half, wherever the focus was. -/
theorem maskedRead_leadsTo {row col : Coord} {color : Color} {ws : List CmdWord} {dr : Draw}
    (h : s.turns = .sequencer n :: .accessor n dr :: ts) (hb : s.blocks[n]? = some b) (hd : s.cfg.depth = .sub d)
    (hp : b.phase = .idle) (hw : b.commands = encode (.setpixel row col color) :: ws) (hst : dr.st = .ok) :
    ∃ u, run 2 s = .next u ∧ s.LeadsTo n s.fb
      (b.readDone row col color ws ⟨.ok, dr.err, Memory.read s.fb (fbAddress d row col)⟩) ts u := by
  obtain ⟨t, hf, rfl, hcfg, hfb⟩ := State.focus_of_block hb ts
  rw [← hfb]
  exact ⟨_, run_maskedRead h hf (hcfg ▸ hd) hp hw hst, State.leadsTo_of_focus hf t.fb _⟩

/-- The second half, wherever the focus was. -/
theorem maskedWrite_leadsTo {a : Answer} {dw : Draw}
    (h : s.turns = .sequencer n :: .accessor n dw :: .sequencer n :: ts) (hb : s.blocks[n]? = some b)
    (hd : s.cfg.depth = .sub d) (hp : b.phase = .rdWait) (ha : b.answer = some a) (hst : a.st = .ok)
    (hst' : dw.st = .ok) :
    ∃ u, run 3 s = .next u ∧ s.LeadsTo n
      (Memory.write s.fb (fbAddress d b.lRow b.lCol) (mergeAt d s.cfg.order a.rdata b.lColor b.lCol))
      (b.writeDone a.rdata) ts u := by
  obtain ⟨t, hf, rfl, hcfg, hfb⟩ := State.focus_of_block hb ts
  rw [← hfb, ← hcfg]
  exact ⟨_, run_maskedWrite h hf (hcfg ▸ hd) hp ha hst hst', State.leadsTo_of_focus hf _ _⟩

end

/-! ### Lost updates -/

/-- Settles O51: the other agent's write changes neither the copy nor the merge that is written over it. -/
theorem overlappingWriteIsLost : Obligations.OverlappingWriteIsLost := by
  intro s t n d row col color ws dr dw q ts h hf hwf hd hp hw hst hst' hk haddr
  obtain ⟨hcfg, -, hfb, -⟩ : t.cfg = s.cfg ∧ t.policy = s.policy ∧ t.fb = s.fb ∧ t.px = s.px ∧
    t.late = s.late ∧ t.turns = ts := State.focus_shared hf
  have hblock : s.blocks[n]? = some t.here := (State.focus_here hf :)
  rw [hfb] at hwf ⊢
  rw [hcfg] at hd ⊢
  obtain ⟨u, hu, after⟩ := maskedRead_leadsTo h hblock hd hp hw hst
  have hdu : u.cfg.depth = .sub d := after.cfg ▸ hd
  obtain ⟨v, hv, hvturns, hvcfg, hvfb, hvblocks⟩ : ∃ v, step u = .next v ∧
      v.turns = .sequencer n :: .accessor n dw :: .sequencer n :: ts ∧ v.cfg = s.cfg ∧
      v.fb = Memory.write s.fb (fbAddress d row col) (storedByte q.wdata) ∧ v.blocks = u.blocks :=
    ⟨_, step_other_write_sub after.turns hdu hk, rfl, after.cfg, by rw [haddr, after.fb], rfl⟩
  have hrun : run 3 s = .next v := (run_add hu).trans ((run_succ hv).trans (run_zero v))
  have hvblock := hvblocks ▸ after.block
  obtain ⟨u', hu', after'⟩ := maskedWrite_leadsTo hvturns hvblock (hvcfg ▸ hd) rfl rfl rfl hst'
  refine ⟨v, u', hrun, ?_, (run_add hrun).trans hu', ?_, ?_⟩
  · rw [hvfb]
    exact Memory.read_write_same _ _ _ hwf
  · rw [after'.fb, hvfb, hvcfg]
    exact Memory.write_write _ _ _ _ hwf
  · rw [after'.here, Block.writeDone_responses, Block.readDone_responses]

/-- From `s` to `u` the instances `n` and `m` have come to be `a` and `b`, with the framebuffer untouched and the turns
`ts` left. -/
structure State.BothRead (s : State) (n m : Nat) (a b : Block) (ts : List Turn) (u : State) : Prop where
  cfg : u.cfg = s.cfg
  fb : u.fb = s.fb
  turns : u.turns = ts
  left : u.blocks[n]? = some a
  right : u.blocks[m]? = some b

theorem State.BothRead.symm {s u : State} {n m : Nat} {a b : Block} {ts : List Turn} (h : s.BothRead n m a b ts u) :
    s.BothRead m n b a ts u :=
  ⟨h.cfg, h.fb, h.turns, h.right, h.left⟩

/-- Two instances that read one after the other read the same framebuffer, and each then holds its own copy. -/
theorem run_bothRead {s : State} {n m : Nat} {a b : Block} {d : SubDepth} {row col row' col' : Coord}
    {color color' : Color} {ws ws' : List CmdWord} {da db : Draw} {ts : List Turn}
    (h : s.turns = .sequencer n :: .accessor n da :: .sequencer m :: .accessor m db :: ts)
    (hd : s.cfg.depth = .sub d) (hnm : n ≠ m) (ha : s.blocks[n]? = some a) (hb : s.blocks[m]? = some b)
    (hap : a.phase = .idle) (hbp : b.phase = .idle) (haw : a.commands = encode (.setpixel row col color) :: ws)
    (hbw : b.commands = encode (.setpixel row' col' color') :: ws') (hda : da.st = .ok) (hdb : db.st = .ok) :
    ∃ u, run 4 s = .next u ∧ s.BothRead n m
      (a.readDone row col color ws ⟨.ok, da.err, Memory.read s.fb (fbAddress d row col)⟩)
      (b.readDone row' col' color' ws' ⟨.ok, db.err, Memory.read s.fb (fbAddress d row' col')⟩) ts u := by
  obtain ⟨t, ht, first⟩ := maskedRead_leadsTo h ha hd hap haw hda
  have hbt : t.blocks[m]? = some b := (first.other m hnm.symm).trans hb
  obtain ⟨u, hu, second⟩ := maskedRead_leadsTo first.turns hbt (first.cfg ▸ hd) hbp hbw hdb
  rw [first.fb] at second
  exact ⟨u, (run_add ht).trans hu, second.cfg.trans first.cfg, second.fb, second.turns,
    (second.other n hnm).trans first.block, second.block⟩

/-- Settles O52: the last write is the merge of the byte as it stood before both, over whatever the other left. -/
theorem twoInstancesLoseAnUpdate : Obligations.TwoInstancesLoseAnUpdate := by
  intro s n m a b d row col col' color color' ws ws' da db da' db' reads ts hreads h hwf hd hnm ha hb hap hbp haw hbw
    hidx hda hdb hda' hdb'
  have haddr : fbAddress d row col' = fbAddress d row col := by rw [fbAddress, hidx, fbAddress]
  obtain ⟨u, hu, both⟩ : ∃ u, run 4 s = .next u ∧ s.BothRead n m
      (a.readDone row col color ws ⟨.ok, da.err, Memory.read s.fb (fbAddress d row col)⟩)
      (b.readDone row col' color' ws' ⟨.ok, db.err, Memory.read s.fb (fbAddress d row col')⟩)
      (.sequencer m :: .accessor m db' :: .sequencer m :: .sequencer n :: .accessor n da' :: .sequencer n :: ts) u := by
    rcases hreads with rfl | rfl
    · exact run_bothRead h hd hnm ha hb hap hbp haw hbw hda hdb
    · exact (run_bothRead h hd hnm.symm hb ha hbp hap hbw haw hdb hda).imp fun _ hu => ⟨hu.1, hu.2.symm⟩
  have hdu : u.cfg.depth = .sub d := both.cfg ▸ hd
  obtain ⟨v, hv, earlier⟩ := maskedWrite_leadsTo both.turns both.right hdu rfl rfl rfl hdb'
  have hnv := (earlier.other n hnm).trans both.left
  obtain ⟨w, hw, later⟩ := maskedWrite_leadsTo earlier.turns hnv (earlier.cfg ▸ hdu) rfl rfl rfl hda'
  refine ⟨w, _, _, (run_add hu).trans ((run_add hv).trans hw), later.block,
    (later.other m hnm.symm).trans earlier.block, by simp, by simp, ?_⟩
  rw [later.fb, earlier.fb, earlier.cfg, both.cfg, both.fb]
  simp only [Block.readDone, haddr]
  exact Memory.write_write _ _ _ _ hwf

end Sys2Proof.Machine

/-! PROOFS. R50 to R54: the encoder and the decoder are inverse to each other at every depth, and the decoder is the
partition of the words that the opcode table and the depth give. -/

namespace Sys2Proof

/-! ### The decoder against the encoder -/

section
variable {w : CmdWord} {i : Instr}

/-- A SETPIXEL word that decodes holds `EXIST` 0, as its command's word does (R53). -/
theorem encode_of_decodeSetpixel (h : decodeSetpixel w = .ok i) :
    encode i = packCommand (colorOf w) (rowOf w) (colOf w) (existOf w) 0 := by
  unfold decodeSetpixel at h
  split_ifs at h with he
  cases h
  rw [encode, not_not.1 he]

/-- A CALC word that decodes holds `EXIST`, `ROW` and `COLOR` 0, as its command's word does (R53). -/
theorem encode_of_decodeCalc (h : decodeCalc w = .ok i) :
    encode i = packCommand (colorOf w) (rowOf w) (colOf w) (existOf w) 1 := by
  unfold decodeCalc at h
  split_ifs at h with he hr hc
  cases h
  rw [encode, not_not.1 he, not_not.1 hr, not_not.1 hc]

/-- A MERGE word that decodes holds `ROW` 0, as its command's word does (R53). -/
theorem encode_of_decodeMerge (h : decodeMerge w = .ok i) :
    encode i = packCommand (colorOf w) (rowOf w) (colOf w) (existOf w) 2 := by
  unfold decodeMerge at h
  split_ifs at h with hr
  cases h
  rw [encode, not_not.1 hr]

/-- A word that decodes has its reserved fields 0, and one of the three decoders of R51 gives its command. -/
theorem decodeWord_cases (h : decodeWord w = .ok i) :
    reservedLoOf w = 0 ∧ reservedHiOf w = 0 ∧
      ((opOf w = 0 ∧ decodeSetpixel w = .ok i) ∨ (opOf w = 1 ∧ decodeCalc w = .ok i) ∨
        (opOf w = 2 ∧ decodeMerge w = .ok i)) := by
  unfold decodeWord at h
  split_ifs at h with h3 hres h0 h1 <;> obtain ⟨hlo, hhi⟩ := not_or.1 hres <;>
    refine ⟨not_not.1 hlo, not_not.1 hhi, ?_⟩
  · exact .inl ⟨h0, h⟩
  · exact .inr (.inl ⟨h1, h⟩)
  · have hop : ∀ op : BitVec 2, op ≠ 3 → op ≠ 0 → op ≠ 1 → op = 2 := by decide
    exact .inr (.inr ⟨hop _ h3 h0 h1, h⟩)

/-- A word that decodes is the word of its command: its fields are those the command packs (R53). -/
theorem encode_of_decodeWord (h : decodeWord w = .ok i) : encode i = w := by
  obtain ⟨hlo, hhi, hcases⟩ := decodeWord_cases h
  have fields : encode i = packCommand (colorOf w) (rowOf w) (colOf w) (existOf w) (opOf w) := by
    rcases hcases with ⟨hop, hd⟩ | ⟨hop, hd⟩ | ⟨hop, hd⟩ <;> rw [hop]
    · exact encode_of_decodeSetpixel hd
    · exact encode_of_decodeCalc hd
    · exact encode_of_decodeMerge hd
  exact fields.trans (packCommand_fields w hlo hhi)

end

/-- A command's word decodes to the command, its fields being the ones packed (R50, R53). -/
theorem decodeWord_encode (i : Instr) : decodeWord (encode i) = .ok i := by
  cases i with
  | setpixel row col color => simp [decodeWord, decodeSetpixel, encode]
  | calcCol col => simp [decodeWord, decodeCalc, encode]
  | merge col color exist => simp [decodeWord, decodeMerge, encode]

theorem decodeWord_eq_ok {w : CmdWord} {i : Instr} : decodeWord w = .ok i ↔ encode i = w := by
  constructor
  · exact encode_of_decodeWord
  · rintro rfl
    exact decodeWord_encode i

/-- A word decodes to a command at a depth exactly if it is the command's word and the command is legal there (R53,
R54). -/
theorem decode_eq_ok {d : Depth} {w : CmdWord} {i : Instr} :
    decode d w = .ok i ↔ encode i = w ∧ i.wf d = true := by
  rw [← decodeWord_eq_ok]
  cases hw : decodeWord w with
  | error c => simp [decode, hw]
  | ok j =>
    by_cases hj : j.wf d = true <;> simp [decode, hw, hj]
    · rintro rfl
      exact hj
    · rintro rfl
      simpa using hj

/-- Settles O1. -/
theorem decodeOfEncodeIsCommand : Obligations.DecodeOfEncodeIsCommand :=
  fun _ _ hwf => decode_eq_ok.2 ⟨rfl, hwf⟩

/-- Settles O2. -/
theorem encodeOfDecodeIsWord : Obligations.EncodeOfDecodeIsWord :=
  fun _ _ _ h => decode_eq_ok.1 h

/-- Settles O5: the decodable words are those of their commands, and each other word fails at the check named. -/
theorem vectorWordsDecode : Obligations.VectorWordsDecode := by
  refine ⟨decode_eq_ok.2 ?_, decode_eq_ok.2 ?_, decode_eq_ok.2 ?_, ?_, ?_, ?_⟩ <;> decide

/-! ### The opcode table -/

/-- Below a depth of 8 there is a calculator, and CALC is legal (R54). -/
theorem wf_calcCol_iff {d : Depth} {col : Coord} : (Instr.calcCol col).wf d = true ↔ d.bits < 8 := by
  rcases d with (_ | _ | _) | (_ | _ | _ | _) <;> simp [Instr.wf, Depth.bits, SubDepth.bits, WideDepth.bits]

/-- MERGE is legal where CALC is (R54). -/
theorem wf_merge_iff {d : Depth} {col : Coord} {color : Color} {exist : Byte} :
    (Instr.merge col color exist).wf d = true ↔ d.bits < 8 :=
  wf_calcCol_iff (col := col)

/-- A word that matches a row has the row's value in each field that the row's mask covers. -/
theorem OpcodeRow.field_of_matchesWord {r : OpcodeRow} {w : CmdWord} (h : r.matchesWord w = true) {start len : Nat}
    (hm : r.mask.extractLsb' start len = BitVec.allOnes len) :
    w.extractLsb' start len = r.pattern.extractLsb' start len := by
  have hw : w &&& r.mask = r.pattern := of_decide_eq_true h
  rw [← hw, BitVec.extractLsb'_and, hm, BitVec.and_allOnes]

/-- The rows of the table (R51). -/
def opcodeTable : List OpcodeRow := [rowSetpixel, rowCalc, rowMerge]

/-- Each row covers `OP` and the reserved fields, and asks for these to be 0 (R50, R53). -/
theorem opcodeTable_covers :
    ∀ r ∈ opcodeTable, opOf r.mask = BitVec.allOnes 2 ∧
      (reservedLoOf r.mask = BitVec.allOnes 6 ∧ reservedLoOf r.pattern = 0) ∧
      (reservedHiOf r.mask = BitVec.allOnes 16 ∧ reservedHiOf r.pattern = 0) := by
  decide

/-- A word that matches a row is the packing of its own operand fields with the row's `OP`. -/
theorem packCommand_of_matchesWord {r : OpcodeRow} (hr : r ∈ opcodeTable) {w : CmdWord} (h : r.matchesWord w = true) :
    packCommand (colorOf w) (rowOf w) (colOf w) (existOf w) (opOf r.pattern) = w := by
  obtain ⟨hop, ⟨hlo, hlo0⟩, hhi, hhi0⟩ := opcodeTable_covers r hr
  have op : opOf w = opOf r.pattern := OpcodeRow.field_of_matchesWord h hop
  rw [← op]
  exact packCommand_fields w ((OpcodeRow.field_of_matchesWord h hlo).trans hlo0)
    ((OpcodeRow.field_of_matchesWord h hhi).trans hhi0)

theorem matchesWord_encode {i : Instr} (h : Laws.EncodingMatchesRow.Statement i) :
    i.row.matchesWord (encode i) = true :=
  decide_eq_true h

/-- The words that match the table's row for SETPIXEL are the words of the SETPIXEL commands. -/
theorem rowSetpixel_matchesWord {w : CmdWord} :
    rowSetpixel.matchesWord w = true ↔ ∃ row col color, encode (.setpixel row col color) = w := by
  constructor
  · intro h
    have packed := packCommand_of_matchesWord (by simp [opcodeTable]) h
    have hexist : existOf w = 0 := OpcodeRow.field_of_matchesWord h (by decide)
    rw [hexist] at packed
    exact ⟨_, _, _, packed⟩
  · rintro ⟨row, col, color, rfl⟩
    exact matchesWord_encode (Laws.EncodingMatchesRow.setpixel row col color)

/-- The words that match the table's row for CALC are the words of the CALC commands. -/
theorem rowCalc_matchesWord {w : CmdWord} :
    rowCalc.matchesWord w = true ↔ ∃ col, encode (.calcCol col) = w := by
  constructor
  · intro h
    have packed := packCommand_of_matchesWord (by simp [opcodeTable]) h
    have hexist : existOf w = 0 := OpcodeRow.field_of_matchesWord h (by decide)
    have hrow : rowOf w = 0 := OpcodeRow.field_of_matchesWord h (by decide)
    have hcolor : colorOf w = 0 := OpcodeRow.field_of_matchesWord h (by decide)
    rw [hexist, hrow, hcolor] at packed
    exact ⟨_, packed⟩
  · rintro ⟨col, rfl⟩
    exact matchesWord_encode (Laws.EncodingMatchesRow.calcCol col)

/-- The words that match the table's row for MERGE are the words of the MERGE commands. -/
theorem rowMerge_matchesWord {w : CmdWord} :
    rowMerge.matchesWord w = true ↔ ∃ col color exist, encode (.merge col color exist) = w := by
  constructor
  · intro h
    have packed := packCommand_of_matchesWord (by simp [opcodeTable]) h
    have hrow : rowOf w = 0 := OpcodeRow.field_of_matchesWord h (by decide)
    rw [hrow] at packed
    exact ⟨_, _, _, packed⟩
  · rintro ⟨col, color, exist, rfl⟩
    exact matchesWord_encode (Laws.EncodingMatchesRow.merge col color exist)

section
variable (d : Depth) (w : CmdWord)

theorem decodes_setpixel_iff :
    (∃ row col color, decode d w = .ok (.setpixel row col color)) ↔ rowSetpixel.matchesWord w = true := by
  simp only [decode_eq_ok, rowSetpixel_matchesWord, Instr.wf, and_true]

theorem decodes_calcCol_iff :
    (∃ col, decode d w = .ok (.calcCol col)) ↔ rowCalc.matchesWord w = true ∧ d.bits < 8 := by
  simp only [decode_eq_ok, rowCalc_matchesWord, wf_calcCol_iff, exists_and_right]

theorem decodes_merge_iff :
    (∃ col color exist, decode d w = .ok (.merge col color exist)) ↔
      rowMerge.matchesWord w = true ∧ d.bits < 8 := by
  simp only [decode_eq_ok, rowMerge_matchesWord, wf_merge_iff, exists_and_right]

/-- A word is illegal exactly if it decodes to none of the three commands. -/
theorem decodes_error_iff :
    (∃ c, decode d w = .error c) ↔
      (¬∃ row col color, decode d w = .ok (.setpixel row col color)) ∧
      (¬∃ col, decode d w = .ok (.calcCol col)) ∧
      ¬∃ col color exist, decode d w = .ok (.merge col color exist) := by
  cases hd : decode d w with
  | error c => simp
  | ok i => cases i <;> simp

end

/-- Settles O3: a row's words are its commands' words, and a word that is no legal command's decodes to nothing. -/
theorem decodeAgreesWithOpcodeTable : Obligations.DecodeAgreesWithOpcodeTable := by
  intro d w
  refine ⟨decodes_setpixel_iff d w, decodes_calcCol_iff d w, decodes_merge_iff d w, ?_⟩
  rw [decodes_error_iff, decodes_setpixel_iff, decodes_calcCol_iff, decodes_merge_iff, Bool.not_eq_true]

/-! ### The operand fields -/

section
variable (w : CmdWord)

theorem existOf_toNat : (existOf w).toNat = w.toNat / 2 ^ 8 % 2 ^ 8 := by
  rw [existOf, BitVec.extractLsb'_toNat, Nat.shiftRight_eq_div_pow]

theorem colOf_toNat : (colOf w).toNat = w.toNat / 2 ^ 32 % 2 ^ 16 := by
  rw [colOf, BitVec.extractLsb'_toNat, Nat.shiftRight_eq_div_pow]

theorem rowOf_toNat : (rowOf w).toNat = w.toNat / 2 ^ 48 % 2 ^ 16 := by
  rw [rowOf, BitVec.extractLsb'_toNat, Nat.shiftRight_eq_div_pow]

/-- `COLOR` is the word's top field, so nothing is cut off above it. -/
theorem colorOf_toNat : (colorOf w).toNat = w.toNat / 2 ^ 64 := by
  have hw := w.isLt
  rw [colorOf, BitVec.extractLsb'_toNat, Nat.shiftRight_eq_div_pow]
  omega

end

/-- Settles O4: a word that decodes packs its command's operands, and each field's number is its part of the word's. -/
theorem operandsAreUnsignedFields : Obligations.OperandsAreUnsignedFields := by
  intro d w
  refine ⟨fun row col color h => ?_, fun col h => ?_, fun col color exist h => ?_⟩ <;>
    obtain ⟨rfl, -⟩ := decode_eq_ok.1 h <;>
    simp only [← existOf_toNat, ← colOf_toNat, ← rowOf_toNat, ← colorOf_toNat] <;>
    simp [encode]

end Sys2Proof

/-! PROOFS. R55 to R57, R60, R61, R91: the response word as a number, the configuration code, and the words of command
lines. -/

namespace Sys2Proof.Machine

/-! ### The response word -/

/-- The higher part of a word stands above the bits of the lower. -/
theorem toNat_append_eq_add {m n : Nat} (hi : BitVec m) (lo : BitVec n) :
    (hi ++ lo).toNat = 2 ^ n * hi.toNat + lo.toNat := by
  rw [BitVec.toNat_append, ← Nat.shiftLeft_add_eq_or_of_lt lo.isLt, Nat.shiftLeft_eq, Nat.mul_comm]

/-- The fields of a response word stand one above the other (R55). -/
theorem Response.word_toNat (r : Response) :
    r.word.toNat =
      (statusCode r.status).toNat + 4 * r.shift.toNat + 256 * r.data.toNat + 65536 * r.err.toNat := by
  have reserved : (0 : BitVec 3).toNat = 0 := rfl
  simp only [Response.word, BitVec.toNat_cast, toNat_append_eq_add, reserved]
  omega

/-- A field of a word is read by its place in the word's number. -/
theorem extractLsb'_eq_of_toNat {n len start : Nat} {w : BitVec n} {v : BitVec len}
    (h : w.toNat / 2 ^ start % 2 ^ len = v.toNat) : w.extractLsb' start len = v := by
  refine BitVec.eq_of_toNat_eq ?_
  rw [BitVec.extractLsb'_toNat, Nat.shiftRight_eq_div_pow, h]

/-- Reading a response word gives back the response it was made of (R55, R56). -/
theorem readResponse_word (r : Response) : readResponse r.word = some r := by
  have hword := r.word_toNat
  have hstatus := (statusCode r.status).isLt
  have hshift := r.shift.isLt
  have hdata := r.data.isLt
  have herr := r.err.isLt
  have shift : r.word.extractLsb' 2 3 = r.shift := extractLsb'_eq_of_toNat (by omega)
  have reserved : r.word.extractLsb' 5 3 = 0 := extractLsb'_eq_of_toNat (show _ = 0 by omega)
  have data : r.word.extractLsb' 8 8 = r.data := extractLsb'_eq_of_toNat (by omega)
  have err : r.word.extractLsb' 16 16 = r.err := extractLsb'_eq_of_toNat (by omega)
  simp only [readResponse, statusOf_word, shift, reserved, data, err, if_true]

/-- Settles O6. -/
theorem responseWordLayout : Obligations.ResponseWordLayout := by
  intro r
  refine ⟨?_, readResponse_word r⟩
  rw [r.word_toNat]
  cases r.status <;> rfl

end Sys2Proof.Machine

namespace Sys2Proof

/-! ### The configuration code -/

/-- The depth codes in order, and code 7 rejected (R57, R91). -/
theorem depthOfCode_bits : ∀ c : BitVec 3, (depthOfCode c).map Depth.bits = [1, 2, 4, 8, 16, 24, 32][c.toNat]? := by
  decide

theorem depthOfCode_codeOfDepth (d : Depth) : depthOfCode (codeOfDepth d) = some d := by
  rcases d with (_ | _ | _) | (_ | _ | _ | _) <;> rfl

theorem orderOfCode_codeOfOrder (o : PackingOrder) : orderOfCode (codeOfOrder o) = o := by
  cases o <;> rfl

theorem orderOfCode_eq_lsbFirst : ∀ c : BitVec 1, orderOfCode c = .lsbFirst ↔ c.toNat = 1 := by
  decide

/-- The code's three low bits name the depth and its top bit the order (R57). -/
theorem configOfCode_eq_map (c : BitVec 4) :
    configOfCode c = (depthOfCode (c.extractLsb' 0 3)).map fun d => ⟨d, orderOfCode (c.extractLsb' 3 1)⟩ := by
  cases h : depthOfCode (c.extractLsb' 0 3) <;> simp only [configOfCode, h] <;> rfl

theorem configOfCode_bits (c : BitVec 4) :
    (configOfCode c).map (fun g => g.depth.bits) = [1, 2, 4, 8, 16, 24, 32][c.toNat % 8]? := by
  rw [configOfCode_eq_map, Option.map_map]
  exact depthOfCode_bits (c.extractLsb' 0 3)

theorem configOfCode_order {c : BitVec 4} {g : Config} (h : configOfCode c = some g) :
    g.order = .lsbFirst ↔ 8 ≤ c.toNat := by
  rw [configOfCode_eq_map, Option.map_eq_some_iff] at h
  obtain ⟨d, -, rfl⟩ := h
  have hc := c.isLt
  rw [orderOfCode_eq_lsbFirst, BitVec.extractLsb'_toNat, Nat.shiftRight_eq_div_pow]
  omega

theorem configOfCode_codeOfConfig (g : Config) : configOfCode (codeOfConfig g) = some g := by
  rw [configOfCode_eq_map, codeOfConfig, BitVec.extractLsb'_append_eq_right, BitVec.extractLsb'_append_eq_left,
    depthOfCode_codeOfDepth, orderOfCode_codeOfOrder]
  rfl

/-- Settles O7. -/
theorem configurationCodes : Obligations.ConfigurationCodes :=
  ⟨fun c => ⟨configOfCode_bits c, fun _ h => configOfCode_order h⟩, configOfCode_codeOfConfig⟩

end Sys2Proof

namespace Sys2Proof.Machine

/-! ### The words of command lines -/

/-- What is made of an operand is made of its number if that fits the field, and is nothing if it is too wide (R60). -/
theorem operand_bind {α : Type} (n v : Nat) (f : BitVec n → Option α) :
    (operand n v).bind f = if v < 2 ^ n then f (BitVec.ofNat n v) else none := by
  by_cases h : v < 2 ^ n <;> simp [operand, h]

section
variable (row col color exist : Nat)

theorem word_setpixel_eq_bind :
    (Line.setpixel row col color).word =
      (operand 16 row).bind fun r => (operand 16 col).bind fun c => (operand 32 color).bind fun k =>
        some (encode (.setpixel r c k)) := by
  cases hr : operand 16 row <;> cases hc : operand 16 col <;> cases hk : operand 32 color <;>
    simp [Line.word, Line.command, hr, hc, hk]

theorem word_calcCol_eq_bind :
    (Line.calcCol col).word = (operand 16 col).bind fun c => some (encode (.calcCol c)) := by
  cases hc : operand 16 col <;> simp [Line.word, Line.command, hc]

theorem word_merge_eq_bind :
    (Line.merge col color exist).word =
      (operand 16 col).bind fun c => (operand 32 color).bind fun k => (operand 8 exist).bind fun e =>
        some (encode (.merge c k e)) := by
  cases hc : operand 16 col <;> cases hk : operand 32 color <;> cases he : operand 8 exist <;>
    simp [Line.word, Line.command, hc, hk, he]

end

/-- Settles O8: a line's word is made of its operands one after the other, and each may be too wide. -/
theorem assembledLinesAreCommandWords : Obligations.AssembledLinesAreCommandWords := by
  refine ⟨fun row col color => ?_, fun col => ?_, fun col color exist => ?_⟩
  · simp only [word_setpixel_eq_bind, operand_bind, ite_and, Nat.reducePow]
  · simp only [word_calcCol_eq_bind, operand_bind, Nat.reducePow]
  · simp only [word_merge_eq_bind, operand_bind, ite_and, Nat.reducePow]

end Sys2Proof.Machine

/-! PROOFS. R54, R55, R58, R79, R82, R88, R89, R105: what a command does in the step that accepts it, and that each
command gets one response. -/

namespace Sys2Proof.Machine

/-! ### The accepted commands -/

section
variable {s : State} (hp : s.here.phase = .idle)
include hp

/-- An idle instance stays in `IDLE` when it responds. -/
theorem State.respond_of_idle (r : Response) :
    s.respond r = { s with here := { s.here with
      responses := s.here.responses ++ [r.word], readErr := none } } := by
  simp only [State.respond, State.mapHere, ← hp]

/-- CALC is turned away where there is no calculator (R54). -/
theorem exec_calcCol_wide {d : WideDepth} (hd : s.cfg.depth = .wide d) (col : Coord) :
    exec (.calcCol col) s = .next (s.respond illegal) := by
  simp only [exec, execCalc, hd, State.whenIdle_idle s _ hp]

/-- MERGE is turned away where there is no calculator (R54). -/
theorem exec_merge_wide {d : WideDepth} (hd : s.cfg.depth = .wide d) (col : Coord) (color : Color) (exist : Byte) :
    exec (.merge col color exist) s = .next (s.respond illegal) := by
  simp only [exec, execMerge, hd, State.whenIdle_idle s _ hp]

/-- On the masked path SETPIXEL begins with its read (R79). -/
theorem exec_setpixel_sub {d : SubDepth} (hd : s.cfg.depth = .sub d) (row col : Coord) (color : Color) :
    exec (.setpixel row col color) s =
      .next ((s.latch row col color).issue (readCall d row col) .rdWait) := by
  simp only [exec, execSetpixel, hd, State.whenIdle_idle s _ hp]

/-- On the direct path SETPIXEL writes the raw color (R82). -/
theorem exec_setpixel_wide {d : WideDepth} (hd : s.cfg.depth = .wide d) (row col : Coord) (color : Color) :
    exec (.setpixel row col color) s =
      .next ((s.latch row col color).issue (writePixelCall row col color) .wrWait) := by
  simp only [exec, execSetpixel, hd, State.whenIdle_idle s _ hp]

end

/-- Settles O17. -/
theorem calculatorCommandsIllegalOnDirectPath : Obligations.CalculatorCommandsIllegalOnDirectPath := by
  intro s d col color exist hd hp
  rw [exec_calcCol_wide hp hd, exec_merge_wide hp hd, State.respond_of_idle hp, illegal_word]
  exact ⟨rfl, rfl⟩

/-- Settles O18. -/
theorem setpixelMaskedIssuesRead : Obligations.SetpixelMaskedIssuesRead :=
  fun _ _ row col color hd hp => exec_setpixel_sub hp hd row col color

/-- Settles O19. -/
theorem setpixelDirectIssuesWrite : Obligations.SetpixelDirectIssuesWrite :=
  fun _ _ row col color hd hp => exec_setpixel_wide hp hd row col color

/-- The first call of a masked SETPIXEL is one the masked path allows (R58). -/
theorem legalCall_readCall (d : SubDepth) (row col : Coord) : legalCall (.sub d) (readCall d row col) = true := by
  simp [legalCall, readCall]

/-- The call of a direct SETPIXEL is one the direct path allows (R58, R84). -/
theorem legalCall_writePixelCall (d : WideDepth) (row col : Coord) (color : Color) :
    legalCall (.wide d) (writePixelCall row col color) = true := by
  simp [legalCall, writePixelCall]

/-- Settles O21: CALC and MERGE are answered in the step that accepts them, and SETPIXEL issues its first call there. -/
theorem acceptedCommandAnswersOrWaits : Obligations.AcceptedCommandAnswersOrWaits := by
  intro i s t hp h
  rcases exec_idle_cases hp h with ⟨r, rfl⟩ | ⟨row, col, color, -, ⟨d, hd, rfl⟩ | ⟨d, hd, rfl⟩⟩
  · exact .inl ⟨rfl, rfl, r, rfl⟩
  · exact .inr ⟨by simp, rfl, readCall d row col, rfl, hd ▸ legalCall_readCall d row col⟩
  · exact .inr ⟨by simp, rfl, writePixelCall row col color, rfl, hd ▸ legalCall_writePixelCall d row col color⟩

/-! ### The step that accepts a word -/

section
variable {s : State} {w : CmdWord} {ws : List CmdWord} (hp : s.here.phase = .idle) (hw : s.here.commands = w :: ws)
include hp hw

/-- An idle sequencer runs the command it is presented (R53, R105). -/
theorem sequencerTurn_decodes {i : Instr} (hd : decode s.cfg.depth w = .ok i) :
    sequencerTurn s = exec i (s.setCommands ws) := by
  simp only [sequencerTurn, acceptTurn, hp, hw, hd]

/-- An idle sequencer answers `ILLEGAL` to a word that does not decode (R53, R89). -/
theorem sequencerTurn_illegal {c : IllegalCause} (hd : decode s.cfg.depth w = .error c) :
    sequencerTurn s = .next ((s.setCommands ws).respond illegal) := by
  simp only [sequencerTurn, acceptTurn, hp, hw, hd]

end

/-- Settles O23. -/
theorem stepRunsDecodedCommand : Obligations.StepRunsDecodedCommand := by
  intro s t n ts w ws i h hf hp hw hd
  exact (step_sequencer h hf).trans (sequencerTurn_decodes hp hw hd)

/-- Settles O24. -/
theorem stepAnswersIllegalWord : Obligations.StepAnswersIllegalWord := by
  intro s t n ts w ws c h hf hp hw hd
  rw [step_sequencer h hf, sequencerTurn_illegal hp hw hd, State.respond_of_idle (s := t.setCommands ws) hp,
    illegal_word]
  rfl

/-- Settles O35. -/
theorem callerTakesOldestResponse : Obligations.CallerTakesOldestResponse := by
  intro s t n ts r rs h hf hr
  rw [step_take h hf, State.takeTurn, State.mapHere, hr, List.tail_cons]

/-! ### One response for each command -/

/-- The responses that an instance owes its caller or has driven: one for each word held, one for the command in flight,
and those not yet taken (R55, R105). -/
def Block.responsesDue (b : Block) : Nat :=
  b.commands.length + (if b.phase = .idle then 0 else 1) + b.responses.length

/-- An instance moves on with no command dropped and none answered twice, and the responses driven stay in their order
(R55, R88). -/
structure Block.KeepsResponses (b b' : Block) : Prop where
  due : b'.responsesDue = b.responsesDue
  driven : ∃ rs, b'.responses = b.responses ++ rs

/-- An instance that neither accepts, nor finishes, nor responds. -/
theorem Block.KeepsResponses.of_eq {b b' : Block} (hw : b'.commands = b.commands) (hp : b'.phase = b.phase)
    (hr : b'.responses = b.responses) : b.KeepsResponses b' :=
  ⟨by simp only [Block.responsesDue, hw, hp, hr], [], by rw [hr, List.append_nil]⟩

/-- A sequencer's turn exchanges a word held for a response or for a command in flight, and a command in flight for a
response. -/
theorem Block.SequencerMove.keepsResponses {cfg : Config} {p : ReadFailPolicy} {b b' : Block}
    (h : b.SequencerMove cfg p b') : b.KeepsResponses b' := by
  cases h with
  | wait => exact .of_eq rfl rfl rfl
  | answered r hp hw =>
    refine ⟨?_, _, rfl⟩
    simp only [Block.responsesDue, hp, hw, List.length_append, List.length_cons, List.length_nil, reduceIte]
    omega
  | readIssued row col color hp hw hd => exact ⟨by simp [Block.responsesDue, hp, hw], [], by simp⟩
  | pixelIssued row col color hp hw hd => exact ⟨by simp [Block.responsesDue, hp, hw], [], by simp⟩
  | mergedIssued hp ha hd he => exact ⟨by simp [Block.responsesDue, hp], [], by simp⟩
  | reported r hp ha =>
    refine ⟨?_, _, rfl⟩
    simp only [Block.responsesDue, if_neg hp, List.length_append, List.length_cons, List.length_nil, reduceIte]
    omega

/-- The RowAccessor touches neither the command port nor the response port. -/
theorem Block.AccessorMove.keepsResponses {cfg : Config} {fb : List Host.Cell} {dr : Draw} {b b' : Block}
    (h : b.AccessorMove cfg fb dr b') : b.KeepsResponses b' := by
  cases h <;> exact .of_eq rfl rfl rfl

/-- No turn but the caller's taking and reset drops a command or a response. -/
theorem Block.Move.keepsResponses {cfg : Config} {p : ReadFailPolicy} {fb : List Host.Cell} {n : Nat} {t : Turn}
    {b b' : Block} (h : b.Move cfg p fb n t b') (ht : t ≠ .take n) (hr : t ≠ .reset n) : b.KeepsResponses b' := by
  cases h with
  | unmoved _ => exact .of_eq rfl rfl rfl
  | sequencer h => exact h.keepsResponses
  | accessor h => exact h.keepsResponses
  | take => exact absurd rfl ht
  | reset => exact absurd rfl hr

/-- Settles O46. -/
theorem everyCommandGetsOneResponse : Obligations.EveryCommandGetsOneResponse := by
  intro s s' t ts n b b' h hs hb hb' ht hr
  obtain ⟨c, hc, hm⟩ := (step_effect h hs).move_of_block hb'
  obtain rfl : c = b := Option.some.inj (hc.symm.trans hb)
  obtain ⟨due, driven⟩ := hm.keepsResponses ht hr
  exact ⟨due, driven⟩

end Sys2Proof.Machine

/-! PROOFS. R62 to R72: the calculator. A byte has `PPB` places of `BPP` bits; a column's shift is where its place
begins and its mask is the bits of its place, so that the masks of a cluster partition the byte. -/

namespace Sys2Proof.Machine

/-! ### The places of a byte -/

/-- The place in the byte, counted from the low end, of the pixel with index `i` in its cluster (R30). -/
def pixelPlace (d : SubDepth) (o : PackingOrder) (i : Nat) : Nat :=
  match o with
  | .msbFirst => ppb d - 1 - i
  | .lsbFirst => i

theorem bits_pos (d : SubDepth) : 0 < d.bits := by cases d <;> decide

theorem ppb_pos (d : SubDepth) : 0 < ppb d := by cases d <;> decide

theorem clusterIndex_lt (d : SubDepth) (col : Coord) : clusterIndex d col < ppb d := Nat.mod_lt _ (ppb_pos d)

section
variable {d : SubDepth} {o : PackingOrder} {i j : Nat}

theorem pixelPlace_lt (hi : i < ppb d) : pixelPlace d o i < ppb d := by
  cases o with
  | msbFirst => simp only [pixelPlace]; omega
  | lsbFirst => exact hi

/-- Counting from either end twice gives the index back. -/
theorem pixelPlace_pixelPlace (hi : i < ppb d) : pixelPlace d o (pixelPlace d o i) = i := by
  cases o with
  | msbFirst => simp only [pixelPlace]; omega
  | lsbFirst => rfl

/-- Different pixels of a cluster have different places. -/
theorem pixelPlace_inj (hi : i < ppb d) (hj : j < ppb d) (h : pixelPlace d o i = pixelPlace d o j) : i = j := by
  rw [← pixelPlace_pixelPlace (o := o) hi, h, pixelPlace_pixelPlace hj]

end

/-- The byte that holds a column holds a column of every index (R28). -/
theorem exists_col_of_clusterIndex {d : SubDepth} {i : Nat} (hi : i < ppb d) (col : Coord) :
    ∃ col', byteIndex d col' = byteIndex d col ∧ clusterIndex d col' = i := by
  have hlt : ppb d * byteIndex d col + i < 65536 := by
    have hk := byteIndex_lt d col
    cases d <;> simp only [ppb, SubDepth.bits, Nat.reduceDiv] at * <;> omega
  have hcol : (BitVec.ofNat 16 (ppb d * byteIndex d col + i)).toNat = ppb d * byteIndex d col + i :=
    Nat.mod_eq_of_lt hlt
  refine ⟨BitVec.ofNat 16 (ppb d * byteIndex d col + i), ?_, ?_⟩
  · rw [byteIndex, hcol, Nat.mul_add_div (ppb_pos d), Nat.div_eq_of_lt hi, Nat.add_zero]
  · rw [clusterIndex, hcol, Nat.mul_add_mod, Nat.mod_eq_of_lt hi]

/-! ### The shift and the mask -/

/-- The base mask as a number (R69). -/
theorem baseMask_toNat (d : SubDepth) : (baseMask d).toNat = 2 ^ d.bits - 1 := by cases d <;> rfl

section
variable (d : SubDepth) (o : PackingOrder) (col : Coord)

/-- The shift is where the column's place begins: in each of the six formulas the low bits kept of the column are its
remainder by `PPB`, and no difference borrows (R63 to R68). -/
theorem calcOf_shift_toNat : (calcOf d o col).1.toNat = d.bits * pixelPlace d o (clusterIndex d col) := by
  cases d <;> cases o <;>
    simp only [calcOf, calcShift, pixelPlace, clusterIndex, ppb, SubDepth.bits, BitVec.toNat_setWidth,
      BitVec.toNat_sub, BitVec.toNat_shiftLeft, Nat.shiftLeft_eq, coord_and_seven, coord_and_three, coord_and_one,
      BitVec.natCast_eq_ofNat, BitVec.toNat_ofNat, BitVec.reduceToNat] <;>
    omega

/-- The mask is formed from the shift (R69). -/
theorem calcOf_mask : (calcOf d o col).2 = baseMask d <<< (calcOf d o col).1 := rfl

/-- The column's place lies within the byte (R71). -/
theorem calcOf_shift_add_bits_le : (calcOf d o col).1.toNat + d.bits ≤ 8 := by
  rw [calcOf_shift_toNat, ← Nat.mul_succ, ← ppb_mul_bits d, Nat.mul_comm (ppb d)]
  exact Nat.mul_le_mul_left _ (pixelPlace_lt (clusterIndex_lt d col))

/-- The mask is not truncated (R69). -/
theorem calcOf_mask_toNat : (calcOf d o col).2.toNat = (2 ^ d.bits - 1) * 2 ^ (calcOf d o col).1.toNat := by
  have hlt : (2 ^ d.bits - 1) * 2 ^ (calcOf d o col).1.toNat < 2 ^ 8 := by
    calc (2 ^ d.bits - 1) * 2 ^ (calcOf d o col).1.toNat
        < 2 ^ d.bits * 2 ^ (calcOf d o col).1.toNat :=
          Nat.mul_lt_mul_of_pos_right (Nat.sub_lt (by positivity) one_pos) (by positivity)
      _ = 2 ^ ((calcOf d o col).1.toNat + d.bits) := by rw [← pow_add, Nat.add_comm]
      _ ≤ 2 ^ 8 := Nat.pow_le_pow_right two_pos (calcOf_shift_add_bits_le d o col)
  rw [calcOf_mask, BitVec.shiftLeft_eq', BitVec.toNat_shiftLeft, baseMask_toNat, Nat.shiftLeft_eq,
    Nat.mod_eq_of_lt hlt]

/-- The mask is the `BPP` bits from the shift up (R71). -/
theorem calcOf_mask_bit (j : Nat) :
    (calcOf d o col).2.getLsbD j = true ↔
      (calcOf d o col).1.toNat ≤ j ∧ j < (calcOf d o col).1.toNat + d.bits := by
  have hbit : (calcOf d o col).2.getLsbD j = true ↔
      j < 8 ∧ (calcOf d o col).1.toNat ≤ j ∧ j - (calcOf d o col).1.toNat < d.bits := by
    simp only [calcOf_mask, BitVec.shiftLeft_eq', BitVec.getLsbD_shiftLeft, baseMask_bit, Bool.and_eq_true,
      Bool.not_eq_true', decide_eq_true_eq, decide_eq_false_iff_not, Nat.not_lt, and_assoc]
  have hle := calcOf_shift_add_bits_le d o col
  rw [hbit]
  omega

/-- The mask is the bits of the column's place. -/
theorem calcOf_mask_bit_place (j : Nat) :
    (calcOf d o col).2.getLsbD j = true ↔ j / d.bits = pixelPlace d o (clusterIndex d col) := by
  have hpos := bits_pos d
  rw [calcOf_mask_bit, calcOf_shift_toNat, Nat.div_eq_iff hpos, Nat.mul_comm]
  omega

/-- The mask moved down by the shift is the base mask (R71). -/
theorem calcOf_mask_ushiftRight_shift : (calcOf d o col).2 >>> (calcOf d o col).1 = baseMask d := by
  apply BitVec.eq_of_toNat_eq
  rw [BitVec.ushiftRight_eq', BitVec.toNat_ushiftRight, Nat.shiftRight_eq_div_pow, calcOf_mask_toNat,
    Nat.mul_div_cancel _ (by positivity), baseMask_toNat]

end

/-- Settles O9: the six formulas are the places of the six configurations. -/
theorem calculatorFormulas : Obligations.CalculatorFormulas := by
  intro col
  refine ⟨?_, ?_, ?_, ?_, ?_, ?_, fun d o => calcOf_mask_toNat d o col⟩ <;>
    simp only [calcOf_shift_toNat, pixelPlace, clusterIndex, ppb, SubDepth.bits] <;>
    omega

/-- Settles O10: the shift begins the place of the index, and the mask is formed from the shift. -/
theorem calculatorReadsOnlyClusterIndex : Obligations.CalculatorReadsOnlyClusterIndex := by
  intro d o c c' h
  have hshift : (calcOf d o c).1 = (calcOf d o c').1 :=
    BitVec.eq_of_toNat_eq ((calcOf_shift_toNat d o c).trans (h ▸ (calcOf_shift_toNat d o c').symm))
  exact Prod.ext hshift (by rw [calcOf_mask, hshift, calcOf_mask])

/-! ### The masks of a cluster -/

/-- Columns of different index have no mask bit in common (R71). -/
theorem calcOf_masks_disjoint {d : SubDepth} (o : PackingOrder) {col col' : Coord}
    (h : clusterIndex d col' ≠ clusterIndex d col) : (calcOf d o col).2 &&& (calcOf d o col').2 = 0#8 := by
  refine BitVec.eq_of_getLsbD_eq fun j _ => ?_
  rw [BitVec.getLsbD_and, BitVec.getLsbD_zero, Bool.and_eq_false_iff]
  by_contra hboth
  simp only [not_or, Bool.not_eq_false, calcOf_mask_bit_place] at hboth
  obtain ⟨hj, hj'⟩ := hboth
  exact h (pixelPlace_inj (clusterIndex_lt d col') (clusterIndex_lt d col) (hj'.symm.trans hj))

/-- Every bit of the byte is in the mask of a column that the byte holds (R71). -/
theorem exists_calcOf_mask_bit (d : SubDepth) (o : PackingOrder) (col : Coord) {j : Nat} (hj : j < 8) :
    ∃ col', byteIndex d col' = byteIndex d col ∧ (calcOf d o col').2.getLsbD j = true := by
  have hplace : j / d.bits < ppb d := (Nat.div_lt_iff_lt_mul (bits_pos d)).2 ((ppb_mul_bits d).symm ▸ hj)
  obtain ⟨col', hbyte, hidx⟩ := exists_col_of_clusterIndex (pixelPlace_lt (o := o) hplace) col
  refine ⟨col', hbyte, (calcOf_mask_bit_place d o col' j).2 ?_⟩
  rw [hidx, pixelPlace_pixelPlace hplace]

/-- The lowest column's place is the highest under `msbFirst` (R71). -/
theorem calcOf_shift_msbFirst (d : SubDepth) (col : Coord) :
    (calcOf d .msbFirst col).1.toNat + d.bits * (clusterIndex d col + 1) = 8 := by
  have hi := clusterIndex_lt d col
  rw [calcOf_shift_toNat, pixelPlace, ← Nat.mul_add, Nat.sub_sub, Nat.add_comm 1, Nat.sub_add_cancel hi, Nat.mul_comm,
    ppb_mul_bits]

/-- Settles O11: the masks are the places of the byte, and each place is one column's. -/
theorem masksPartitionTheByte : Obligations.MasksPartitionTheByte := by
  intro d o col
  have hlsb : (calcOf d .lsbFirst col).1.toNat = d.bits * clusterIndex d col := calcOf_shift_toNat d .lsbFirst col
  have hmsb := calcOf_shift_msbFirst d col
  have hsum : (calcOf d .msbFirst col).1.toNat + (calcOf d .lsbFirst col).1.toNat = 8 - d.bits := by
    rw [Nat.mul_succ] at hmsb
    omega
  exact ⟨hlsb, hmsb, hsum, ⟨_, calcOf_shift_toNat d o col⟩, calcOf_shift_add_bits_le d o col, calcOf_mask_bit d o col,
    fun _ h => calcOf_masks_disjoint o h, fun _ hj => exists_calcOf_mask_bit d o col hj,
    calcOf_mask_ushiftRight_shift d o col⟩

/-! ### The command -/

/-- CALC is answered where there is a calculator (R72). -/
theorem exec_calcCol_sub {s : State} (hp : s.here.phase = .idle) {d : SubDepth} (hd : s.cfg.depth = .sub d)
    (col : Coord) :
    exec (.calcCol col) s =
      .next (s.respond (okCalc (calcOf d s.cfg.order col).1 (calcOf d s.cfg.order col).2)) := by
  simp only [exec, execCalc, hd, State.whenIdle_idle s _ hp]

/-- Settles O15. -/
theorem calcAnswersShiftAndMask : Obligations.CalcAnswersShiftAndMask := by
  intro s d col hd hp
  rw [exec_calcCol_sub hp hd, State.respond_of_idle hp, okCalc]

end Sys2Proof.Machine

/-! PROOFS. R73 to R77, R85: the merge. Under a column's mask it puts the color's low bits and elsewhere it keeps the
byte, so that a masked SETPIXEL sets the one pixel it names. -/

namespace Sys2Proof.Machine

/-! ### The merged byte -/

/-- The base mask moved up by a shift lets just the color's bits under the base mask through (R74). -/
theorem shiftedColor_and_mask (d : SubDepth) (color : Color) (shift : Shift) :
    ((color.setWidth 40 <<< shift).setWidth 8) &&& (baseMask d <<< shift) =
      (color.setWidth 8 &&& baseMask d) <<< shift := by
  refine BitVec.eq_of_getLsbD_eq fun j hj => ?_
  have hlow : j - shift.toNat < 8 ∧ j - shift.toNat < 40 ∧ j < 40 := by omega
  simp only [BitVec.shiftLeft_eq', BitVec.getLsbD_and, BitVec.getLsbD_setWidth, BitVec.getLsbD_shiftLeft, hj, hlow,
    decide_true, Bool.true_and]
  cases decide (j < shift.toNat) <;> simp

/-- The merge at a column, with the color cut to its low bits before it is shifted (R74). -/
theorem mergeAt_eq (d : SubDepth) (o : PackingOrder) (e : Byte) (color : Color) (col : Coord) :
    mergeAt d o e color col =
      (e &&& ~~~(calcOf d o col).2) ||| ((color.setWidth 8 &&& baseMask d) <<< (calcOf d o col).1) := by
  rw [mergeAt, merge, calcOf_mask, shiftedColor_and_mask]

/-- Whatever the mask, the merge keeps every bit outside it (R75). -/
theorem merge_and_not_mask (e : Byte) (color : Color) (shift : Shift) (mask : Byte) :
    merge e color shift mask &&& ~~~mask = e &&& ~~~mask := by
  refine BitVec.eq_of_getLsbD_eq fun j hj => ?_
  rw [BitVec.getLsbD_and, BitVec.getLsbD_and, BitVec.getLsbD_not, merge_bit e color shift mask j hj]
  cases mask.getLsbD j <;> simp

/-- Settles O12. -/
theorem mergeKeepsOnlyLowColorBits : Obligations.MergeKeepsOnlyLowColorBits :=
  fun d o e color col =>
    ⟨baseMask_toNat d, shiftedColor_and_mask d color (calcOf d o col).1, mergeAt_eq d o e color col⟩

/-- Settles O13. -/
theorem mergePreservesNeighbourBits : Obligations.MergePreservesNeighbourBits :=
  fun d o e color col => merge_and_not_mask e color (calcOf d o col).1 (calcOf d o col).2

/-! ### The pixels of the merged byte -/

section
variable (d : SubDepth) (o : PackingOrder)

/-- A pixel is the `BPP` bits of its byte from the shift up (R76). -/
theorem pixel_bit (b : Byte) (col : Coord) (i : Nat) :
    (pixel d o b col).getLsbD i = (decide (i < d.bits) && b.getLsbD ((calcOf d o col).1.toNat + i)) := by
  have hmask : (calcOf d o col).2.getLsbD ((calcOf d o col).1.toNat + i) = decide (i < d.bits) := by
    rw [Bool.eq_iff_iff, calcOf_mask_bit, decide_eq_true_iff]
    omega
  rw [pixel, BitVec.ushiftRight_eq', BitVec.getLsbD_ushiftRight, BitVec.getLsbD_and, hmask, Bool.and_comm]

/-- The merged byte reads back at the column as the color's low bits (R76). -/
theorem pixel_mergeAt_same (e : Byte) (color : Color) (col : Coord) :
    pixel d o (mergeAt d o e color col) col = color.setWidth 8 &&& baseMask d := by
  refine BitVec.eq_of_getLsbD_eq fun i hi => ?_
  rw [pixel_bit, BitVec.getLsbD_and, baseMask_bit, Bool.and_comm]
  by_cases hbits : i < d.bits
  · have hmask : (calcOf d o col).2.getLsbD ((calcOf d o col).1.toNat + i) = true :=
      (calcOf_mask_bit d o col _).2 ⟨Nat.le_add_right _ _, Nat.add_lt_add_left hbits _⟩
    have hle := calcOf_shift_add_bits_le d o col
    rw [mergeAt, merge_bit _ _ _ _ _ (by omega), if_pos hmask, Nat.add_sub_cancel_left]
    simp [hi]
  · simp [hbits]

variable {d}

/-- The mask of a column lies outside the mask of a column of another index (R71). -/
theorem not_mask_and_mask {col col' : Coord} (h : clusterIndex d col' ≠ clusterIndex d col) :
    ~~~(calcOf d o col).2 &&& (calcOf d o col').2 = (calcOf d o col').2 := by
  refine BitVec.eq_of_getLsbD_eq fun j hj => ?_
  have hdisjoint : ((calcOf d o col).2.getLsbD j && (calcOf d o col').2.getLsbD j) = false := by
    rw [← BitVec.getLsbD_and, calcOf_masks_disjoint o h, BitVec.getLsbD_zero]
  rw [BitVec.getLsbD_and, BitVec.getLsbD_not]
  cases hmask : (calcOf d o col').2.getLsbD j with
  | false => rw [Bool.and_false]
  | true =>
    rw [hmask, Bool.and_true] at hdisjoint
    simp only [hdisjoint, hj, decide_true, Bool.not_false, Bool.and_self]

/-- The merged byte reads as before at a column of another index (R76). -/
theorem pixel_mergeAt_other (e : Byte) (color : Color) {col col' : Coord}
    (h : clusterIndex d col' ≠ clusterIndex d col) :
    pixel d o (mergeAt d o e color col) col' = pixel d o e col' := by
  have hkept : mergeAt d o e color col &&& (calcOf d o col').2 = e &&& (calcOf d o col').2 := by
    rw [← not_mask_and_mask o h, ← BitVec.and_assoc, mergeAt, merge_and_not_mask, BitVec.and_assoc]
  rw [pixel, hkept, pixel]

end

/-- Settles O14. -/
theorem mergedPixelReadsBack : Obligations.MergedPixelReadsBack :=
  fun d o e color col => ⟨pixel_mergeAt_same d o e color col, fun _ h => pixel_mergeAt_other o e color h⟩

/-! ### The command -/

/-- MERGE is answered where there is a calculator (R77). -/
theorem exec_merge_sub {s : State} (hp : s.here.phase = .idle) {d : SubDepth} (hd : s.cfg.depth = .sub d)
    (col : Coord) (color : Color) (exist : Byte) :
    exec (.merge col color exist) s = .next (s.respond (okMerge (mergeAt d s.cfg.order exist color col))) := by
  simp only [exec, execMerge, hd, State.whenIdle_idle s _ hp]

/-- Settles O16. -/
theorem mergeAnswersMergedByte : Obligations.MergeAnswersMergedByte := by
  intro s d col color exist hd hp
  rw [exec_merge_sub hp hd, State.respond_of_idle hp, okMerge, mergeAt]

/-! ### The pixels of the framebuffer -/

/-- A byte of the framebuffer is one byte of one row (R28). -/
theorem fbAddress_inj {d : SubDepth} {row row' col col' : Coord} (h : fbAddress d row' col' = fbAddress d row col) :
    row' = row ∧ byteIndex d col' = byteIndex d col := by
  have hk (c : Coord) : byteIndex d c < 65536 := lt_of_lt_of_le (byteIndex_lt d c) (Nat.div_le_self _ _)
  have hcol := hk col
  have hcol' := hk col'
  simp only [fbAddress, fbKey] at h
  exact ⟨BitVec.eq_of_toNat_eq (by omega), by omega⟩

/-- A column is its byte and its place there (R28, R70). -/
theorem col_eq_of_byteIndex_of_clusterIndex {d : SubDepth} {col col' : Coord}
    (hbyte : byteIndex d col' = byteIndex d col) (hidx : clusterIndex d col' = clusterIndex d col) : col' = col := by
  apply BitVec.eq_of_toNat_eq
  rw [← Nat.div_add_mod col'.toNat (ppb d), ← Nat.div_add_mod col.toNat (ppb d)]
  exact congrArg₂ (ppb d * · + ·) hbyte hidx

/-- The framebuffer with the color merged into the byte that holds a pixel, and nothing else written (R79). -/
def mergeInto (d : SubDepth) (o : PackingOrder) (fb : List Host.Cell) (row col : Coord) (color : Color) :
    List Host.Cell :=
  Memory.write fb (fbAddress d row col) (mergeAt d o (Memory.read fb (fbAddress d row col)) color col)

section
variable {fb : List Host.Cell} (hwf : Memory.wf fb = true) (d : SubDepth) (o : PackingOrder) (row col : Coord)
  (color : Color)
include hwf

/-- The pixel is set (R76, R85). -/
theorem pixel_mergeInto_same :
    pixel d o (Memory.read (mergeInto d o fb row col color) (fbAddress d row col)) col =
      color.setWidth 8 &&& baseMask d := by
  rw [mergeInto, Memory.read_write_same _ _ _ hwf, pixel_mergeAt_same]

/-- Every other pixel is kept: one in another byte is not written, and one in the same byte is a neighbour (R75,
R85). -/
theorem pixel_mergeInto_other {row' col' : Coord} (h : (row', col') ≠ (row, col)) :
    pixel d o (Memory.read (mergeInto d o fb row col color) (fbAddress d row' col')) col' =
      pixel d o (Memory.read fb (fbAddress d row' col')) col' := by
  rw [mergeInto]
  by_cases haddr : fbAddress d row' col' = fbAddress d row col
  · obtain ⟨rfl, hbyte⟩ := fbAddress_inj haddr
    have hidx : clusterIndex d col' ≠ clusterIndex d col := fun hidx =>
      h (by rw [col_eq_of_byteIndex_of_clusterIndex hbyte hidx])
    rw [haddr, Memory.read_write_same _ _ _ hwf, pixel_mergeAt_other o _ color hidx]
  · rw [Memory.read_write_other _ _ _ _ haddr]

end

/-! ### The whole masked SETPIXEL -/

/-- The two halves of a masked SETPIXEL with nothing between them: the byte is still what was read when the merge is
written over it (R79). -/
theorem run_maskedSetpixel {s t : State} {n : Nat} {d : SubDepth} {row col : Coord} {color : Color} {ws : List CmdWord}
    {dr dw : Draw} {ts : List Turn}
    (h : s.turns = .sequencer n :: .accessor n dr :: .sequencer n :: .accessor n dw :: .sequencer n :: ts)
    (hf : ({ s with turns := ts } : State).focus n = some t) (hd : t.cfg.depth = .sub d) (hp : t.here.phase = .idle)
    (hw : t.here.commands = encode (.setpixel row col color) :: ws) (hst : dr.st = .ok) (hst' : dw.st = .ok) :
    run 5 s = .next { t with
      fb := mergeInto d t.cfg.order t.fb row col color
      here := (t.here.readDone row col color ws ⟨.ok, dr.err, t.fbByte d row col⟩).writeDone
        (t.fbByte d row col) } := by
  have hn : t.before.length = n := State.focus_before_length hf
  obtain ⟨-, -, -, -, -, rfl⟩ := State.focus_shared hf
  have hread := run_maskedRead h (State.focus_turns hf _) hd hp hw hst
  exact (run_add hread).trans <| run_maskedWrite
    (t := t.mapHere (·.readDone row col color ws ⟨.ok, dr.err, t.fbByte d row col⟩))
    rfl (State.focus_of_length hn) hd rfl rfl rfl hst'

/-- Settles O49: the run merges the color into the byte that holds the pixel. -/
theorem maskedSetpixelSetsOnePixel : Obligations.MaskedSetpixelSetsOnePixel := by
  intro s t t' n d row col color ws dr dw ts h hf hwf hd hp hw hst hst' hrun
  cases (run_maskedSetpixel h hf hd hp hw hst hst').symm.trans hrun
  exact ⟨pixel_mergeInto_same hwf d t.cfg.order row col color,
    fun _ _ hne => pixel_mergeInto_other hwf d t.cfg.order row col color hne⟩

end Sys2Proof.Machine

/-! PROOFS. R79 to R83, R86, R90, R92: what a SETPIXEL in flight does when its call is answered, and the whole SETPIXEL
on either path. -/

namespace Sys2Proof.Machine

/-! ### A call is answered -/

/-- The instance after its last answer is received and its one response driven (R13, R55). -/
def Block.report (b : Block) (r : Response) : Block :=
  { b with responses := b.responses ++ [r.word], readErr := none, call := none, answer := none, phase := .idle }

theorem State.receive_respond (s : State) (r : Response) : s.receive.respond r = s.mapHere (·.report r) := rfl

section
variable {s : State} {d : SubDepth} {a : Answer} (ha : s.here.answer = some a)
include ha

/-- A failed read ends the command under `ABORT` (R80). -/
theorem sequencerTurn_read_abort (hd : s.cfg.depth = .sub d) (hpol : s.policy = .abort)
    (hp : s.here.phase = .rdWait) (hst : a.st = .err) :
    sequencerTurn s = .next (s.mapHere (·.report (accErr a.err))) := by
  simp only [sequencerTurn, hp, ha, onReadAnswer, hd, hst, hpol, State.receive_respond]

/-- After a failed read under `WRITE_ANY` the byte of the failing response is merged, and the error is kept (R80). -/
theorem sequencerTurn_read_writeAny (hd : s.cfg.depth = .sub d) (hpol : s.policy = .writeAny)
    (hp : s.here.phase = .rdWait) (hst : a.st = .err) :
    sequencerTurn s = .next ((s.capture a.rdata (some a.err)).issue
      (writeByteCall d s.here.lRow s.here.lCol (mergeAt d s.cfg.order a.rdata s.here.lColor s.here.lCol)) .wrWait) := by
  simp only [sequencerTurn, hp, ha, onReadAnswer, hd, hst, hpol]
  rfl

/-- A sequencer in `WR_WAIT` reports the outcome of both calls (R81, R83, R92). -/
theorem sequencerTurn_write (hp : s.here.phase = .wrWait) :
    sequencerTurn s = .next (s.mapHere (·.report (finalResponse s.here.readErr a))) := by
  simp only [sequencerTurn, hp, ha, onWriteAnswer, State.receive_respond]

end

/-- Settles O26. -/
theorem readSuccessIssuesMergedWrite : Obligations.ReadSuccessIssuesMergedWrite := by
  intro s t n ts d a h hf hd hp ha hst
  exact (step_sequencer h hf).trans (sequencerTurn_read_ok hd hp ha hst)

/-- Settles O27. -/
theorem readFailureAborts : Obligations.ReadFailureAborts := by
  intro s t n ts d a h hf hd hpol hp ha hst
  exact (step_sequencer h hf).trans (sequencerTurn_read_abort ha hd hpol hp hst)

/-- Settles O28. -/
theorem readFailureWritesAnyByte : Obligations.ReadFailureWritesAnyByte := by
  intro s t n ts d a h hf hd hpol hp ha hst
  exact (step_sequencer h hf).trans (sequencerTurn_read_writeAny ha hd hpol hp hst)

/-- Settles O29: a kept error comes before the write's status (R92). -/
theorem writeAnswerReportsOutcome : Obligations.WriteAnswerReportsOutcome := by
  intro s t n ts a h hf hp ha
  rw [step_sequencer h hf, sequencerTurn_write ha hp, ← okDone_word]
  cases hre : t.here.readErr with
  | some e => rfl
  | none => cases hst : a.st <;> simp only [finalResponse, hst] <;> rfl

/-! ### The masked path -/

/-- Settles O47: the two halves of the command leave what its report says. -/
theorem maskedSetpixelTransaction : Obligations.MaskedSetpixelTransaction := by
  intro s t n d row col color ws dr dw ts h hf hd hp hw hst hst'
  rw [← okDone_word]
  exact run_maskedSetpixel h hf hd hp hw hst hst'

/-! ### The direct path -/

/-- The instance after a direct SETPIXEL is accepted and its write call issued (R82). -/
def Block.pixelIssued (b : Block) (row col : Coord) (color : Color) (ws : List CmdWord) : Block :=
  { b with
    lRow := row, lCol := col, lColor := color, commands := ws, readErr := none
    call := some (writePixelCall row col color), answer := none, phase := .wrWait }

section
variable {s : State} {d : WideDepth} {row col : Coord} {color : Color} {ws : List CmdWord}

/-- A sequencer in `IDLE` accepts a direct SETPIXEL (R82). -/
theorem sequencerTurn_setpixel_wide (hd : s.cfg.depth = .wide d) (hp : s.here.phase = .idle)
    (hw : s.here.commands = encode (.setpixel row col color) :: ws) :
    sequencerTurn s = .next (s.mapHere (·.pixelIssued row col color ws)) := by
  rw [sequencerTurn_decodes hp hw (decode_encode_setpixel _ row col color),
    exec_setpixel_wide (s := s.setCommands ws) hp hd]
  rfl

/-- The write call of the direct path replaces the pixel, where it succeeds (R35). -/
theorem accessorTurn_writePixel_ok {dw : Draw} (hd : s.cfg.depth = .wide d)
    (hc : s.here.call = some (writePixelCall row col color)) (hst : dw.st = .ok) :
    s.accessorTurn dw =
      .next (({ s with px := Memory.write s.px (pxAddress row col) (storedPixel d color) } : State).reply
        ⟨.ok, dw.err, dw.rdata⟩) := by
  rw [accessorTurn_write hc rfl, State.withWrite_draw_wide hd, Draw.write, if_pos (.inl hst), hst]
  rfl

end

section
variable {s t : State} {n : Nat} {d : WideDepth} {row col : Coord} {color : Color} {ws : List CmdWord} {ts : List Turn}

/-- The turn that accepts a direct SETPIXEL. -/
theorem run_directIssue (h : s.turns = .sequencer n :: ts) (hf : ({ s with turns := ts } : State).focus n = some t)
    (hd : t.cfg.depth = .wide d) (hp : t.here.phase = .idle)
    (hw : t.here.commands = encode (.setpixel row col color) :: ws) :
    run 1 s = .next (t.mapHere (·.pixelIssued row col color ws)) :=
  run_succ ((step_sequencer h hf).trans (sequencerTurn_setpixel_wide hd hp hw))

/-- The three turns of a direct SETPIXEL: its call is issued, performed and reported (R82). -/
theorem run_directSetpixel {dw : Draw} (h : s.turns = .sequencer n :: .accessor n dw :: .sequencer n :: ts)
    (hf : ({ s with turns := ts } : State).focus n = some t) (hd : t.cfg.depth = .wide d) (hp : t.here.phase = .idle)
    (hw : t.here.commands = encode (.setpixel row col color) :: ws) (hst : dw.st = .ok) :
    run 3 s = .next { t with
      px := Memory.write t.px (pxAddress row col) (storedPixel d color)
      here := (t.here.pixelIssued row col color ws).report okDone } := by
  have hn : t.before.length = n := State.focus_before_length hf
  obtain ⟨-, -, -, -, -, rfl⟩ := State.focus_shared hf
  refine (run_add (j := 2) (run_directIssue h (State.focus_turns hf _) hd hp hw)).trans ?_
  refine Eq.trans (run_accessor rfl hn (accessorTurn_writePixel_ok hd rfl hst)) ?_
  exact Eq.trans (run_sequencer rfl hn (sequencerTurn_write_ok rfl rfl rfl rfl)) rfl

end

/-- Settles O48. -/
theorem directSetpixelTransaction : Obligations.DirectSetpixelTransaction := by
  intro s t n d row col color ws dw ts h hf hd hp hw hst
  rw [← okDone_word]
  exact run_directSetpixel h hf hd hp hw hst

/-- Settles O50: the second command starts where the first ended, so its call is the same and its store is of the same
value to the same key. -/
theorem directSetpixelIsIdempotent : Obligations.DirectSetpixelIsIdempotent := by
  intro s t n d row col color ws dw dw' ts h hf hwf hd hp hw hst hst'
  have hn : t.before.length = n := State.focus_before_length hf
  have hissue := run_directIssue h (State.focus_turns hf _) hd hp hw
  have hfirst := run_directSetpixel h (State.focus_turns hf (.sequencer n :: .accessor n dw' :: .sequencer n :: ts))
    hd hp hw hst
  refine ⟨_, _, _, _, hissue, hfirst,
    (run_add (j := 1) hfirst).trans (run_directIssue rfl (State.focus_of_length hn) hd rfl rfl),
    (run_add (j := 3) hfirst).trans (run_directSetpixel rfl (State.focus_of_length hn) hd rfl rfl hst'),
    rfl, rfl, ?_, rfl, ?_⟩
  · exact Memory.write_write _ _ _ _ hwf
  · exact (congrArg _ (Memory.read_write_same _ _ _ (Memory.write_wf _ _ _ hwf))).trans (storedPixel_toNat d color)

end Sys2Proof.Machine

/-! PROOFS. R33, R88, R94, R97: a turn reads and changes what the instances share and its own instance, nothing else;
and from a well-formed state it is never stopped. -/

namespace Sys2Proof.Machine

/-! ### The same device with other instances -/

/-- What the instances of `s` share, with other instances behind it (R97). -/
def State.withBlocks (s : State) (before : List Block) (here : Block) (after : List Block) : State :=
  { s with before := before, here := here, after := after }

section
variable (s : State) (bs : List Block) (b : Block) (as : List Block)

theorem State.store_withBlocks (q : Request) : (s.withBlocks bs b as).store q = (s.store q).withBlocks bs b as := by
  cases hd : s.cfg.depth with
  | sub d => rw [State.store_sub hd, State.store_sub (s := s.withBlocks bs b as) hd]; rfl
  | wide d => rw [State.store_wide hd, State.store_wide (s := s.withBlocks bs b as) hd]; rfl

theorem State.withWrite_withBlocks (w : Option Request) :
    (s.withBlocks bs b as).withWrite w = (s.withWrite w).withBlocks bs b as := by
  cases w with
  | none => rfl
  | some q => exact s.store_withBlocks bs b as q

theorem State.perform_withBlocks (q : Request) :
    (s.withBlocks bs b as).perform q = (s.perform q).withBlocks bs b as := by
  rw [State.perform_eq_withWrite, State.perform_eq_withWrite, State.withWrite_withBlocks]

theorem State.lateTurn_withBlocks (k : Nat) (landed : Bool) :
    (s.withBlocks bs b as).lateTurn k landed = (s.lateTurn k landed).withBlocks bs b as := by
  cases hq : s.late[k]? with
  | none => simp only [State.lateTurn, State.withBlocks, hq]
  | some q =>
    simp only [State.lateTurn, hq, show (s.withBlocks bs b as).late = s.late from rfl]
    cases landed with
    | false => rfl
    | true => exact State.perform_withBlocks { s with late := s.late.eraseIdx k } bs b as q

/-- The instance in focus is the one with as many instances before it as its number. -/
theorem State.withBlocks_block {n : Nat} (hn : bs.length = n) : (s.withBlocks bs b as).blocks[n]? = some b := by
  subst hn
  simp [State.blocks, State.withBlocks]

end

/-- Two machines that agree on what instances share differ in their instances alone. -/
theorem State.eq_withBlocks_of_sharedEq {s u : State} (h : s.sharedEq u) :
    u = s.withBlocks u.before u.here u.after := by
  obtain ⟨hcfg, hpol, hfb, hpx, hlate, hturns⟩ := h
  simp only [State.withBlocks, hcfg, hpol, hfb, hpx, hlate, hturns]

/-- Bringing the same instance into focus in both machines leaves them to differ in the other instances alone. -/
theorem State.focus_withBlocks {s v : State} {n : Nat} {bs as : List Block} {b : Block} (hv : s.focus n = some v)
    (hb : s.blocks[n]? = (s.withBlocks bs b as).blocks[n]?) :
    ∃ bs' as', bs'.length = n ∧ (s.withBlocks bs b as).focus n = some (v.withBlocks bs' v.here as') := by
  have hu := State.focus_eq_some.2 ⟨v.here, hb.symm.trans (State.focus_here hv), rfl⟩
  obtain ⟨c, -, rfl⟩ := State.focus_eq_some.1 hv
  exact ⟨_, _, State.focus_before_length hu, hu⟩

/-! ### The turn of an instance -/

/-- At `s`, `f` answers a next state, and it neither reads nor changes the instances out of focus (R88, R97). -/
def IgnoresOthers (f : State → Host.Outcome State Fault Refusal) (s : State) : Prop :=
  ∃ t : State, ∀ bs as, f (s.withBlocks bs s.here as) = .next (t.withBlocks bs t.here as)

theorem IgnoresOthers.exists_next {f : State → Host.Outcome State Fault Refusal} {s : State}
    (h : IgnoresOthers f s) : ∃ s', f s = .next s' := by
  obtain ⟨t, ht⟩ := h
  exact ⟨_, ht s.before s.after⟩

section
variable {s : State}

/-- A sequencer in `IDLE` with no word presented waits (R105). -/
theorem sequencerTurn_no_word (hp : s.here.phase = .idle) (hw : s.here.commands = []) :
    sequencerTurn s = .next s := by
  simp only [sequencerTurn, acceptTurn, hp, hw]

/-- A busy sequencer with no answer to receive waits (R107). -/
theorem sequencerTurn_no_answer (hp : s.here.phase ≠ .idle) (ha : s.here.answer = none) :
    sequencerTurn s = .next s := by
  cases hph : s.here.phase with
  | idle => exact absurd hph hp
  | rdWait => simp only [sequencerTurn, hph, ha]
  | wrWait => simp only [sequencerTurn, hph, ha]

theorem exec_ignoresOthers (i : Instr) (s : State) : IgnoresOthers (exec i) s := by
  by_cases hp : s.here.phase = .idle
  · cases hd : s.cfg.depth with
    | sub d =>
      cases i with
      | setpixel row col color =>
        exact ⟨(s.latch row col color).issue (readCall d row col) .rdWait,
          fun bs as => exec_setpixel_sub (s := s.withBlocks bs s.here as) hp hd row col color⟩
      | calcCol col =>
        exact ⟨s.respond (okCalc (calcOf d s.cfg.order col).1 (calcOf d s.cfg.order col).2),
          fun bs as => exec_calcCol_sub (s := s.withBlocks bs s.here as) hp hd col⟩
      | merge col color exist =>
        exact ⟨s.respond (okMerge (mergeAt d s.cfg.order exist color col)),
          fun bs as => exec_merge_sub (s := s.withBlocks bs s.here as) hp hd col color exist⟩
    | wide d =>
      cases i with
      | setpixel row col color =>
        exact ⟨(s.latch row col color).issue (writePixelCall row col color) .wrWait,
          fun bs as => exec_setpixel_wide (s := s.withBlocks bs s.here as) hp hd row col color⟩
      | calcCol col =>
        exact ⟨s.respond illegal, fun bs as => exec_calcCol_wide (s := s.withBlocks bs s.here as) hp hd col⟩
      | merge col color exist =>
        exact ⟨s.respond illegal,
          fun bs as => exec_merge_wide (s := s.withBlocks bs s.here as) hp hd col color exist⟩
  · exact ⟨s, fun bs as => exec_busy (s := s.withBlocks bs s.here as) hp i⟩

/-- A sequencer's turn, where a read's answer comes at a masked depth alone (R84). -/
theorem sequencerTurn_ignoresOthers
    (hread : ∀ a, s.here.phase = .rdWait → s.here.answer = some a → ∃ d, s.cfg.depth = .sub d) :
    IgnoresOthers sequencerTurn s := by
  cases hp : s.here.phase with
  | idle =>
    cases hw : s.here.commands with
    | nil => exact ⟨s, fun bs as => sequencerTurn_no_word (s := s.withBlocks bs s.here as) hp hw⟩
    | cons w ws =>
      cases hd : decode s.cfg.depth w with
      | error c =>
        exact ⟨(s.setCommands ws).respond illegal,
          fun bs as => sequencerTurn_illegal (s := s.withBlocks bs s.here as) hp hw hd⟩
      | ok i =>
        obtain ⟨t, ht⟩ := exec_ignoresOthers i (s.setCommands ws)
        exact ⟨t, fun bs as =>
          (sequencerTurn_decodes (s := s.withBlocks bs s.here as) hp hw hd).trans (ht bs as)⟩
  | rdWait =>
    cases ha : s.here.answer with
    | none =>
      have busy : s.here.phase ≠ .idle := by simp [hp]
      exact ⟨s, fun bs as => sequencerTurn_no_answer (s := s.withBlocks bs s.here as) busy ha⟩
    | some a =>
      obtain ⟨d, hd⟩ := hread a hp ha
      cases hst : a.st with
      | ok =>
        exact ⟨continueMasked d a.rdata none s.receive,
          fun bs as => sequencerTurn_read_ok (s := s.withBlocks bs s.here as) hd hp ha hst⟩
      | err =>
        cases hpol : s.policy with
        | abort =>
          exact ⟨s.mapHere (·.report (accErr a.err)),
            fun bs as => sequencerTurn_read_abort (s := s.withBlocks bs s.here as) ha hd hpol hp hst⟩
        | writeAny =>
          exact ⟨continueMasked d a.rdata (some a.err) s.receive,
            fun bs as => sequencerTurn_read_writeAny (s := s.withBlocks bs s.here as) ha hd hpol hp hst⟩
  | wrWait =>
    cases ha : s.here.answer with
    | none =>
      have busy : s.here.phase ≠ .idle := by simp [hp]
      exact ⟨s, fun bs as => sequencerTurn_no_answer (s := s.withBlocks bs s.here as) busy ha⟩
    | some a =>
      exact ⟨s.mapHere (·.report (finalResponse s.here.readErr a)),
        fun bs as => sequencerTurn_write (s := s.withBlocks bs s.here as) ha hp⟩

/-- The RowAccessor's turn, where it is asked to read at a masked depth alone (R84). -/
theorem accessorTurn_ignoresOthers {dr : Draw}
    (hread : ∀ q, s.here.call = some q → q.kind = .read → ∃ d, s.cfg.depth = .sub d) :
    IgnoresOthers (·.accessorTurn dr) s := by
  cases hc : s.here.call with
  | none => exact ⟨s, fun bs as => by simp only [State.accessorTurn, State.withBlocks, hc]⟩
  | some q =>
    cases hk : q.kind with
    | read =>
      obtain ⟨d, hd⟩ := hread q hc hk
      exact ⟨s.reply ⟨dr.st, dr.err, if dr.st = .ok then s.fbByte d q.row q.col else dr.rdata⟩,
        fun bs as => accessorTurn_read (s := s.withBlocks bs s.here as) hd hc hk⟩
    | write =>
      refine ⟨(s.withWrite (if dr.st = .ok ∨ dr.landed = true then some q else none)).reply
        ⟨dr.st, dr.err, dr.rdata⟩, fun bs as => ?_⟩
      refine (accessorTurn_write (s := s.withBlocks bs s.here as) hc hk).trans ?_
      rw [State.withWrite_withBlocks]
      simp only [State.reply, State.mapHere, State.withBlocks, State.withWrite_here]

/-- The invariant, or that the machine goes on, tells that a sequencer receives a read's answer at a masked depth. -/
theorem depth_of_readAnswer {a : Answer} (h : s.wf = true ∨ ∃ s', sequencerTurn s = .next s')
    (hp : s.here.phase = .rdWait) (ha : s.here.answer = some a) : ∃ d, s.cfg.depth = .sub d := by
  rcases h with h | ⟨s', h⟩
  · have hwf := State.wf_block h (State.focus_here s.focus_self)
    obtain ⟨-, ⟨d, hd, -⟩, -⟩ := (Block.wf_rdWait hp).1 hwf
    exact ⟨d, hd⟩
  · simp only [sequencerTurn, hp, ha] at h
    obtain ⟨d, hd, -⟩ := onReadAnswer_cases h
    exact ⟨d, hd⟩

/-- The invariant, or that the machine goes on, tells that the RowAccessor is asked to read at a masked depth. -/
theorem depth_of_readCall {q : Request} {dr : Draw} (h : s.wf = true ∨ ∃ s', s.accessorTurn dr = .next s')
    (hc : s.here.call = some q) (hk : q.kind = .read) : ∃ d, s.cfg.depth = .sub d := by
  rcases h with h | ⟨s', h⟩
  · have hwf := State.wf_block h (State.focus_here s.focus_self)
    rcases Block.wf_call hwf hc with ⟨-, d, hd, -⟩ | ⟨-, rfl⟩
    · exact ⟨d, hd⟩
    · rw [Block.writeCall_kind] at hk
      cases hk
  · rcases accessorTurn_cases h with ⟨hnone, -⟩ | ⟨q', hq', ⟨hk', -⟩ | ⟨d, -, hd, -⟩⟩
    · rw [hc] at hnone
      cases hnone
    · obtain rfl := Option.some.inj (hc.symm.trans hq')
      rw [hk] at hk'
      cases hk'
    · exact ⟨d, hd⟩

end

/-! ### One turn -/

/-- A turn of no instance answers a next state, and it neither reads nor changes any instance. -/
theorem runTurn_of_no_actor {t : Turn} (ht : t.actor = none) (s : State) :
    ∃ s' : State, ∀ bs b as, runTurn t (s.withBlocks bs b as) = .next (s'.withBlocks bs b as) := by
  cases t with
  | other q => exact ⟨s.perform q, fun bs b as => congrArg _ (s.perform_withBlocks bs b as q)⟩
  | late k landed => exact ⟨s.lateTurn k landed, fun bs b as => congrArg _ (s.lateTurn_withBlocks bs b as k landed)⟩
  | sequencer n => cases ht
  | accessor n dr => cases ht
  | take n => cases ht
  | reset n => cases ht

/-- A turn of instance `n` is done with that instance in focus, and there it ignores the others, if the state is
well-formed or the turn answers a next state at all. -/
theorem runTurn_of_actor {t : Turn} {n : Nat} (ht : t.actor = some n) :
    ∃ f, (∀ s, runTurn t s = s.inFocus n f) ∧
      ∀ s, (s.wf = true ∨ ∃ s', f s = .next s') → IgnoresOthers f s := by
  cases t with
  | sequencer m =>
    cases ht
    exact ⟨_, fun _ => rfl, fun s h => sequencerTurn_ignoresOthers fun a hp ha => depth_of_readAnswer h hp ha⟩
  | accessor m dr =>
    cases ht
    exact ⟨_, fun _ => rfl, fun s h => accessorTurn_ignoresOthers fun q hc hk => depth_of_readCall h hc hk⟩
  | take m =>
    cases ht
    exact ⟨_, fun _ => rfl, fun s _ => ⟨s.takeTurn, fun _ _ => rfl⟩⟩
  | reset m =>
    cases ht
    exact ⟨_, fun _ => rfl, fun s _ => ⟨s.resetTurn, fun _ _ => rfl⟩⟩
  | other q => cases ht
  | late k landed => cases ht

theorem runTurn_exists_next {s : State} (h : s.wf = true) (t : Turn) : ∃ s', runTurn t s = .next s' := by
  cases ht : t.actor with
  | none =>
    obtain ⟨s', hs'⟩ := runTurn_of_no_actor ht s
    exact ⟨_, hs' s.before s.here s.after⟩
  | some n =>
    obtain ⟨f, hf, hothers⟩ := runTurn_of_actor ht
    rw [hf]
    cases hv : s.focus n with
    | none => exact ⟨s, by simp only [State.inFocus, hv]⟩
    | some v =>
      simp only [State.inFocus, hv]
      exact (hothers v (.inl ((State.wf_focus hv).trans h))).exists_next

/-- Settles O40. -/
theorem wellFormedStateNeverStops : Obligations.WellFormedStateNeverStops := by
  intro s h
  rcases step_cases s with ⟨-, e⟩ | ⟨t, ts, -, e⟩
  · exact ⟨s, e⟩
  · rw [e]
    exact runTurn_exists_next (s := { s with turns := ts }) h t

/-! ### What a turn changes and what it reads -/

/-- A turn leaves every instance but its own as it was (R97). -/
theorem State.Effect.other_block {s s' : State} {t : Turn} (h : s.Effect t s') {m : Nat} (hm : t.actor ≠ some m) :
    s'.blocks[m]? = s.blocks[m]? := by
  have hr := h.blocks m
  generalize s.blocks[m]? = o, s'.blocks[m]? = o' at hr ⊢
  cases hr with
  | none => rfl
  | some hmove =>
    cases hmove with
    | unmoved _ => rfl
    | sequencer _ => exact absurd rfl hm
    | accessor _ => exact absurd rfl hm
    | take => exact absurd rfl hm
    | reset => exact absurd rfl hm

/-- A turn does in one machine what it does in another with the same instance of its own (R97). -/
theorem runTurn_withBlocks {s s' : State} {t : Turn} {bs as : List Block} {b : Block}
    (hb : ∀ n, t.actor = some n → s.blocks[n]? = (s.withBlocks bs b as).blocks[n]?) (hs : runTurn t s = .next s') :
    ∃ u', runTurn t (s.withBlocks bs b as) = .next u' ∧ s'.sharedEq u' ∧
      ∀ n, t.actor = some n → s'.blocks[n]? = u'.blocks[n]? := by
  cases ht : t.actor with
  | none =>
    obtain ⟨w, hw⟩ := runTurn_of_no_actor ht s
    obtain rfl : w.withBlocks s.before s.here s.after = s' := Host.Outcome.next.inj ((hw _ _ _).symm.trans hs)
    exact ⟨_, hw bs b as, ⟨rfl, rfl, rfl, rfl, rfl, rfl⟩, fun n hn => by cases hn⟩
  | some n =>
    obtain ⟨f, hf, hothers⟩ := runTurn_of_actor ht
    rw [hf] at hs ⊢
    rcases State.inFocus_cases hs with ⟨hn, e⟩ | ⟨v, hv, hx⟩
    · obtain rfl : s = s' := e.symm
      have hu : (s.withBlocks bs b as).focus n = none := State.focus_eq_none.2 ((hb n ht).symm.trans hn)
      exact ⟨s.withBlocks bs b as, by simp only [State.inFocus, hu], ⟨rfl, rfl, rfl, rfl, rfl, rfl⟩,
        fun m hm => hb m (ht.trans hm)⟩
    · obtain ⟨w, hw⟩ := hothers v (.inr ⟨s', hx⟩)
      obtain rfl : w.withBlocks v.before w.here v.after = s' := Host.Outcome.next.inj ((hw _ _).symm.trans hx)
      obtain ⟨bs', as', hlen, hu⟩ := State.focus_withBlocks hv (hb n ht)
      refine ⟨w.withBlocks bs' w.here as', ?_, ⟨rfl, rfl, rfl, rfl, rfl, rfl⟩, fun m hm => ?_⟩
      · simp only [State.inFocus, hu]
        exact hw bs' as'
      · cases hm
        rw [State.withBlocks_block _ _ _ _ (State.focus_before_length hv), State.withBlocks_block _ _ _ _ hlen]

/-- A step is its turn in the state without it, whatever the instances hold. -/
theorem step_withBlocks {s : State} {t : Turn} {ts : List Turn} (ht : s.turns = t :: ts) (bs : List Block) (b : Block)
    (as : List Block) :
    step (s.withBlocks bs b as) = runTurn t (({ s with turns := ts } : State).withBlocks bs b as) := by
  simp only [step, State.withBlocks, ht]

/-- Settles O43. -/
theorem instancesShareOnlyTheFramebuffer : Obligations.InstancesShareOnlyTheFramebuffer := by
  refine ⟨fun s s' t ts ht hs m hm => (step_effect ht hs).other_block hm, fun s u s' t ts ht hsu hb hs => ?_⟩
  rw [State.eq_withBlocks_of_sharedEq hsu] at hb ⊢
  rw [step_withBlocks ht]
  have hs' : runTurn t { s with turns := ts } = .next s' := (step_withBlocks ht s.before s.here s.after).symm.trans hs
  exact runTurn_withBlocks (s := { s with turns := ts }) hb hs'

end Sys2Proof.Machine

/-! PROOFS. R44, R88, R107: a command in flight goes on by the moves it waits for, other turns leave it as far as it
was, and its last move drives its response. -/

namespace Sys2Proof.Machine

/-! ### One turn of a command in flight -/

/-- The command in flight ends: its response, `OK` or `ACC_ERR`, is driven and the instance is in `IDLE` (R88, R90). -/
def Block.Completes (b b' : Block) : Prop :=
  b'.phase = .idle ∧ ∃ r : Response, b'.responses = b.responses ++ [r.word] ∧ r.status ≠ .illegal

/-- The command in flight of instance `n` stays in flight over the turn `t`, with one move less to make if `t` is the
move it waits for. -/
def Block.Advances (n : Nat) (t : Turn) (b b' : Block) : Prop :=
  b'.phase ≠ .idle ∧ b.remaining = b'.remaining + if t.serves n b.remaining = true then 1 else 0

section
variable {cfg : Config} {p : ReadFailPolicy} {b b' : Block} {n : Nat} {t : Turn}

/-- The moves a busy instance needs: two for the read not yet received, and the answer and its receipt. -/
theorem Block.remaining_busy (hp : b.phase ≠ .idle) :
    b.remaining = (if b.phase = .rdWait then 2 else 0) + if b.answer = none then 2 else 1 := by
  cases hph : b.phase with
  | idle => exact absurd hph hp
  | rdWait => cases ha : b.answer <;> simp [Block.remaining, hph, ha]
  | wrWait => cases ha : b.answer <;> simp [Block.remaining, hph, ha]

/-- A busy instance with no answer waits for the RowAccessor. -/
theorem Block.remaining_even (hp : b.phase ≠ .idle) (ha : b.answer = none) : b.remaining % 2 = 0 := by
  rw [Block.remaining_busy hp, if_pos ha]
  split <;> rfl

/-- A busy instance with an answer waits for its own sequencer. -/
theorem Block.remaining_odd {a : Answer} (hp : b.phase ≠ .idle) (ha : b.answer = some a) : b.remaining % 2 = 1 := by
  have hne : b.answer ≠ none := by simp [ha]
  rw [Block.remaining_busy hp, if_neg hne]
  split <;> rfl

/-- The answer to a call is one move of the command. -/
theorem Block.remaining_answered (hp : b.phase ≠ .idle) (ha : b.answer = none) (a : Answer) :
    b.remaining = ({ b with call := none, answer := some a } : Block).remaining + 1 := by
  rw [Block.remaining_busy hp, if_pos ha, Block.remaining_busy (b := { b with call := none, answer := some a }) hp]
  rfl

/-- A turn serves an instance only if it is the instance's own. -/
theorem Turn.actor_of_serves {r : Nat} (h : t.serves n r = true) : t.actor = some n := by
  cases t with
  | sequencer m | accessor m _ =>
    obtain ⟨rfl, -⟩ : m = n ∧ _ := by simpa only [Turn.serves, Bool.and_eq_true, decide_eq_true_eq] using h
    rfl
  | other _ | late _ _ | take _ | reset _ => cases h

/-- A turn that the command does not wait for, and that leaves phase and answer, leaves the command as far as it was. -/
theorem Block.Advances.of_unserved (hp : b.phase ≠ .idle) (hphase : b'.phase = b.phase) (ha : b'.answer = b.answer)
    (hs : t.serves n b.remaining = false) : b.Advances n t b' := by
  have same : b'.remaining = b.remaining := by simp only [Block.remaining, hphase, ha]
  exact ⟨hphase ▸ hp, by simp [hs, same]⟩

/-- A well-formed block with a call outstanding has no answer yet (R44). -/
theorem Block.wf_answer_none {q : Request} (h : b.wf cfg p = true) (hc : b.call = some q) : b.answer = none := by
  cases ha : b.answer with
  | none => rfl
  | some a =>
    have hnone := Block.wf_call_none h ha
    rw [hc] at hnone
    cases hnone

/-- A well-formed busy block with no call outstanding has its answer (R44). -/
theorem Block.wf_answer_of_call_none (h : b.wf cfg p = true) (hp : b.phase ≠ .idle) (hc : b.call = none) :
    ∃ a, b.answer = some a := by
  have of_waitsFor {q : Request} (hw : b.waitsFor q = true) : ∃ a, b.answer = some a := by
    rcases Block.waitsFor_iff.1 hw with ⟨hq, -⟩ | ⟨-, ha⟩
    · rw [hc] at hq
      cases hq
    · exact ha
  cases hph : b.phase with
  | idle => exact absurd hph hp
  | rdWait =>
    obtain ⟨-, ⟨d, -, hw⟩, -⟩ := (Block.wf_rdWait hph).1 h
    exact of_waitsFor hw
  | wrWait =>
    obtain ⟨hw, -⟩ := (Block.wf_wrWait hph).1 h
    exact of_waitsFor hw

/-- The RowAccessor's turn answers the outstanding call, or finds it answered. -/
theorem Block.AccessorMove.advances {fb : List Host.Cell} {dr : Draw} (hm : b.AccessorMove cfg fb dr b')
    (h : b.wf cfg p = true) (hp : b.phase ≠ .idle) : b.Advances n (.accessor n dr) b' := by
  have answered {q : Request} (hc : b.call = some q) (a : Answer) :
      b.Advances n (.accessor n dr) { b with call := none, answer := some a } := by
    have ha := Block.wf_answer_none h hc
    have hs : (Turn.accessor n dr).serves n b.remaining = true := by simp [Turn.serves, Block.remaining_even hp ha]
    exact ⟨hp, by rw [if_pos hs, Block.remaining_answered hp ha a]⟩
  cases hm with
  | idle hc =>
    obtain ⟨a, ha⟩ := Block.wf_answer_of_call_none h hp hc
    exact .of_unserved hp rfl rfl (by simp [Turn.serves, Block.remaining_odd hp ha])
  | readAnswered hc hk hd hst => exact answered hc _
  | answered hc hk => exact answered hc _

end

/-- A SETPIXEL reports `OK` or `ACC_ERR` (R90, R92). -/
theorem finalResponse_status (e : Option ErrCode) (a : Answer) : (finalResponse e a).status ≠ .illegal := by
  cases e with
  | some e => simp [finalResponse, accErr]
  | none => cases hst : a.st <;> simp [finalResponse, hst, accErr, okDone]

/-- The turn of a busy sequencer: it waits for an answer, ends the command, or goes on from the read to the write. -/
theorem sequencerTurn_busy {s : State} (h : s.here.wf s.cfg s.policy = true) (hp : s.here.phase ≠ .idle) (n : Nat) :
    ∃ b', sequencerTurn s = .next (s.mapHere fun _ => b') ∧
      (s.here.Completes b' ∨ s.here.Advances n (.sequencer n) b') := by
  cases ha : s.here.answer with
  | none =>
    have hs : (Turn.sequencer n).serves n s.here.remaining = false := by
      simp [Turn.serves, Block.remaining_even hp ha]
    exact ⟨s.here, sequencerTurn_no_answer hp ha, .inr (.of_unserved hp rfl rfl hs)⟩
  | some a =>
    have completes (r : Response) (hr : r.status ≠ .illegal) : s.here.Completes (s.here.report r) :=
      ⟨rfl, r, rfl, hr⟩
    cases hph : s.here.phase with
    | idle => exact absurd hph hp
    | rdWait =>
      obtain ⟨-, ⟨d, hd, -⟩, -⟩ := (Block.wf_rdWait hph).1 h
      have advances (e : Option ErrCode) :
          s.here.Advances n (.sequencer n) (continueMasked d a.rdata e s.receive).here :=
        ⟨by simp [continueMasked], by simp [continueMasked, Block.remaining, Turn.serves, hph, ha]⟩
      cases hst : a.st with
      | ok => exact ⟨_, sequencerTurn_read_ok hd hph ha hst, .inr (advances none)⟩
      | err =>
        cases hpol : s.policy with
        | abort => exact ⟨_, sequencerTurn_read_abort ha hd hpol hph hst, .inl (completes _ (by simp [accErr]))⟩
        | writeAny => exact ⟨_, sequencerTurn_read_writeAny ha hd hpol hph hst, .inr (advances (some a.err))⟩
    | wrWait => exact ⟨_, sequencerTurn_write ha hph, .inl (completes _ (finalResponse_status _ _))⟩

/-- A turn that is neither its sequencer's nor its reset leaves the command of an instance in flight. -/
theorem Block.Move.advances {cfg : Config} {p : ReadFailPolicy} {fb : List Host.Cell} {n : Nat} {t : Turn}
    {b b' : Block} (hm : b.Move cfg p fb n t b') (h : b.wf cfg p = true) (hp : b.phase ≠ .idle)
    (hs : t ≠ .sequencer n) (hr : t ≠ .reset n) : b.Advances n t b' := by
  cases hm with
  | unmoved hne => exact .of_unserved hp rfl rfl (Bool.eq_false_iff.2 fun hserves => hne (Turn.actor_of_serves hserves))
  | sequencer _ => exact absurd rfl hs
  | accessor hm => exact hm.advances h hp
  | take => exact .of_unserved hp rfl rfl rfl
  | reset => exact absurd rfl hr

/-- Over any turn but its reset, the command in flight of an instance ends or goes on. -/
theorem step_busy {s : State} {t : Turn} {ts : List Turn} {n : Nat} {b : Block} (h : s.wf = true)
    (ht : s.turns = t :: ts) (hb : s.blocks[n]? = some b) (hp : b.phase ≠ .idle) (hr : t ≠ .reset n) :
    ∃ s' b', step s = .next s' ∧ s'.blocks[n]? = some b' ∧ (b.Completes b' ∨ b.Advances n t b') := by
  have hwf := State.wf_block h hb
  by_cases hseq : t = .sequencer n
  · subst hseq
    obtain ⟨u, hu, rfl⟩ : ∃ u, ({ s with turns := ts } : State).focus n = some u ∧ u.here = b :=
      ⟨_, State.focus_eq_some.2 ⟨b, hb, rfl⟩, rfl⟩
    obtain ⟨hcfg, hpol, -⟩ := State.focus_shared hu
    obtain ⟨b', hturn, hgoes⟩ := sequencerTurn_busy (hcfg ▸ hpol ▸ hwf) hp n
    refine ⟨_, b', (step_sequencer ht hu).trans hturn, ?_, hgoes⟩
    rw [State.mapHere_block, if_pos (State.focus_before_length hu).symm]
  · obtain ⟨s', hs⟩ := wellFormedStateNeverStops s h
    have hrel := (step_effect ht hs).blocks n
    rw [hb] at hrel
    generalize hb' : s'.blocks[n]? = o at hrel
    cases hrel with
    | some hm => exact ⟨s', _, hs, hb', .inr (hm.advances hwf hp hseq hr)⟩

/-! ### The run up to the response -/

/-- The command of instance `n` stays in flight for `k` steps, and the next step ends it. -/
def State.CompletesAfter (s : State) (n k : Nat) : Prop :=
  ∃ t t' bk b', run k s = .next t ∧ step t = .next t' ∧ t.blocks[n]? = some bk ∧ t'.blocks[n]? = some b' ∧
    (∀ j ≤ k, ∃ u c, run j s = .next u ∧ u.blocks[n]? = some c ∧ c.phase ≠ .idle) ∧ bk.Completes b'

section
variable {s s' : State} {n : Nat} {b b' : Block} (hs : step s = .next s') (hb : s.blocks[n]? = some b)
  (hp : b.phase ≠ .idle)
include hs hb hp

theorem State.CompletesAfter.now (hb' : s'.blocks[n]? = some b') (hc : b.Completes b') : s.CompletesAfter n 0 := by
  refine ⟨s, s', b, b', run_zero s, hs, hb, hb', fun j hj => ?_, hc⟩
  obtain rfl := Nat.le_zero.1 hj
  exact ⟨s, b, run_zero s, hb, hp⟩

theorem State.CompletesAfter.succ {k : Nat} (h : s'.CompletesAfter n k) : s.CompletesAfter n (k + 1) := by
  obtain ⟨t, t', bk, b', hrun, hstep, hbk, hb', hbusy, hc⟩ := h
  refine ⟨t, t', bk, b', (run_succ hs).trans hrun, hstep, hbk, hb', fun j hj => ?_, hc⟩
  cases j with
  | zero => exact ⟨s, b, run_zero s, hb, hp⟩
  | succ j =>
    obtain ⟨u, c, hu, hc', hcp⟩ := hbusy j (Nat.le_of_succ_le_succ hj)
    exact ⟨u, c, (run_succ hs).trans hu, hc', hcp⟩

end

/-- The turns after the first hold the moves still waited for. -/
theorem Block.Advances.keeps_served {b b' : Block} {n : Nat} {t : Turn} {ts : List Turn} (hadv : b.Advances n t b')
    (h : servedBy n b.remaining (t :: ts) = true) : servedBy n b'.remaining ts = true := by
  obtain ⟨-, hrem⟩ := hadv
  by_cases hs : t.serves n b.remaining = true
  · rw [if_pos hs] at hrem
    rw [hrem] at h hs
    simpa [servedBy, hs] using h
  · rw [if_neg hs, Nat.add_zero] at hrem
    rw [← hrem]
    cases hr : b.remaining with
    | zero => exact servedBy_zero n ts
    | succ r =>
      rw [hr] at h hs
      simpa [servedBy, hs] using h

/-- Induction on the turns: each of them ends the command in flight, or brings it nearer to its end, or is none that it
waits for. -/
theorem completesAfter_of_servedBy {n : Nat} {ts : List Turn} {s : State} {b : Block} (hturns : s.turns = ts)
    (h : s.wf = true) (hb : s.blocks[n]? = some b) (hp : b.phase ≠ .idle) (hserved : servedBy n b.remaining ts = true)
    (hreset : Turn.reset n ∉ ts) : ∃ k < ts.length, s.CompletesAfter n k := by
  induction ts generalizing s b with
  | nil =>
    obtain ⟨r, hr⟩ := Nat.exists_eq_succ_of_ne_zero fun e => hp (Block.remaining_eq_zero.1 e)
    rw [hr] at hserved
    cases hserved
  | cons t ts ih =>
    obtain ⟨ht, hts⟩ := not_or.1 (fun e => hreset (List.mem_cons.2 e))
    obtain ⟨s', b', hs, hb', hc | hadv⟩ := step_busy h hturns hb hp (Ne.symm ht)
    · exact ⟨0, Nat.succ_pos _, .now hs hb hp hb' hc⟩
    · obtain ⟨k, hk, hafter⟩ := ih (step_turns hturns hs) (stepKeepsWellFormed s s' h hs) hb' hadv.1
        (hadv.keeps_served hserved) hts
      exact ⟨k + 1, Nat.succ_lt_succ hk, .succ hs hb hp hafter⟩

/-- Settles O55. -/
theorem answeredCommandCompletes : Obligations.AnsweredCommandCompletes := by
  intro s n b h hb hp hserved hreset
  obtain ⟨k, hk, t, t', bk, b', hrun, hstep, hbk, hb', hbusy, hidle, r, hresp, hstatus⟩ :=
    completesAfter_of_servedBy rfl h hb hp hserved hreset
  exact ⟨k, t, t', bk, b', r, hk, hrun, hstep, hbk, hb', hbusy, hidle, hresp, hstatus⟩

end Sys2Proof.Machine

/-! PROOFS. R99 to R101, R105, R107: an instance in flight accepts nothing and waits for its answer, and a reset ends
what is in flight. -/

namespace Sys2Proof.Machine

/-- Settles O20: no command acts outside `IDLE` (log entry 13). -/
theorem busyInstanceAcceptsNothing : Obligations.BusyInstanceAcceptsNothing :=
  fun i _ hp => exec_busy hp i

/-- Settles O25: the step is the sequencer's turn, and with no answer that turn waits. -/
theorem sequencerWaitsForAnswer : Obligations.SequencerWaitsForAnswer :=
  fun _ _ _ _ h hf hp ha => (step_sequencer h hf).trans (sequencerTurn_no_answer hp ha)

/-- Settles O34: the instance is `Block.reset` again but for the words its caller holds, whatever its phase was. -/
theorem resetReturnsInstanceToIdle : Obligations.ResetReturnsInstanceToIdle :=
  fun _ t _ _ h hf =>
    ⟨{ Block.reset with commands := t.here.commands }, step_reset h hf, rfl, rfl, rfl, rfl, rfl, rfl⟩

end Sys2Proof.Machine
